-- ==== Sys2Proof/Word.lean ====
section
/-! DEFINITION. The bit-vector types of the host interface.

A datapath word (spec/00_scope.md R10) is a `BitVec w` with `w` = 32 or 64, an unsigned number in `[0, 2^w)`; it is
written `BitVec w` where it stands, because both widths are used by one definition (R111). -/

namespace Sys2Proof

/-- One element of the MSG and DIG spaces (R60). -/
abbrev Byte := BitVec 8

/-- A 32-bit word of the host interface: a register value, a bus request REQ (R80), its DATA, or a command word
(R81). -/
abbrev HWord := BitVec 32

/-- The INDEX field of a bus request, bits 27:0 (R80). -/
abbrev Index := BitVec 28

end Sys2Proof
end

