-- ==== Sys2Proof/Config.lean ====
section
/-! DEFINITION. What is fixed for one hardware: the kind of core, the three variants, the bound of the message
buffer's capacity, and the shape of the per-width configuration data (spec/00_scope.md R7, R8; spec/10_state.md R20).

The tables themselves (rotation amounts, K, IV, digest lengths) are values of these types in
Sys2Proof/Machine/Constants.lean. The two parameters of one core, CORE_KIND and MSG_CAP (R8), are held in `State`
(the kind by the width of its datapath), where no step changes them: every statement about a state is thereby a
statement about every kind and every capacity. -/

namespace Sys2Proof

/-- CORE_KIND (R8). -/
inductive CoreKind where
  /-- `SHA256_core`: SHA-256, 32-bit words. -/
  | sha256Core
  /-- `SHA512_core`: SHA-384 and SHA-512, 64-bit words. -/
  | sha512Core
deriving DecidableEq, Repr

/-- The legal algorithm selectors (R2, R23); selector 3 is reserved and has no value here. -/
inductive Alg where
  /-- SHA-256, selector 0. -/
  | sha256
  /-- SHA-384, selector 1. -/
  | sha384
  /-- SHA-512, selector 2. -/
  | sha512
deriving DecidableEq, Repr

/-- The bound of the OPEN parameter MSG_CAP (R8: "a natural number with `MSG_CAP ≤ 2^28`"). -/
abbrev Config.maxMsgCap : Nat := 2 ^ 28

/-- MSG_CAP, the capacity of the message buffer in bytes: a natural number that carries its bound (R8). -/
abbrev MsgCap := Fin (Config.maxMsgCap + 1)

/-- The kind of core that `State.reset` is: DESIGN CHOICE, R8 leaves CORE_KIND a parameter (log entry 3). -/
abbrev Config.resetKind : CoreKind := .sha256Core

/-- The capacity of the core that `State.reset` is: DESIGN CHOICE, R8 leaves MSG_CAP open (log entry 3). -/
abbrev Config.resetMsgCap : MsgCap := ⟨Config.maxMsgCap, by decide⟩

/-- The configuration data of one word width `w` with `R = 16 + e` rounds (R7, R111): "round count, round constants,
and initial state supplied as per-variant configuration data". -/
structure WordConfig (w e : Nat) where
  /-- the amounts of lower_sigma_0: rotr, rotr, shr -/
  lower0 : Nat × Nat × Nat
  /-- the amounts of lower_sigma_1: rotr, rotr, shr -/
  lower1 : Nat × Nat × Nat
  /-- the amounts of upper_sigma_0: rotr, rotr, rotr -/
  upper0 : Nat × Nat × Nat
  /-- the amounts of upper_sigma_1: rotr, rotr, rotr -/
  upper1 : Nat × Nat × Nat
  /-- the round constants K[0..R) -/
  roundK : Vector (BitVec w) (16 + e)

end Sys2Proof
end

