-- ==== Sys2Proof/Syntax.lean ====
section
/-! DEFINITION. The instruction set: one constructor per row of spec/opcode_table.json.

The hardware runs no program and fetches no instruction (spec/00_scope.md R9): its only instructions are the host
operations of spec/48_host_operations.md. -/

namespace Sys2Proof

/-- The host operations, one constructor per row of spec/opcode_table.json. -/
inductive Instr where
  /-- WR_CMD (R200): write the command word `data` to CMD. -/
  | wrCmd (data : HWord)
  /-- HASH.SHA256 (R200): the command word 0x00000001. -/
  | hashSha256
  /-- HASH.SHA384 (R200): the command word 0x00000011. -/
  | hashSha384
  /-- HASH.SHA512 (R200): the command word 0x00000021. -/
  | hashSha512
  /-- RD_STATUS (R201). -/
  | rdStatus
  /-- WR_LEN (R202). -/
  | wrLen (data : HWord)
  /-- RD_LEN (R207). -/
  | rdLen
  /-- WR_MSG (R203): write one message byte. -/
  | wrMsg (idx : Index) (data : HWord)
  /-- RD_MSG (R204). -/
  | rdMsg (idx : Index)
  /-- RD_DIG (R205). -/
  | rdDig (idx : Index)
  /-- RESET (R206): the reset input, asserted. -/
  | reset
deriving DecidableEq, Repr

end Sys2Proof
end

