-- ==== Sys2Proof/WellFormed.lean ====
section
/-! DEFINITION. Which instructions the decode of spec/30_encoding.md R84 can answer on a core whose message buffer
has `cap` cells: an INDEX outside its space names no operation. Every DATA is well formed: a value that a rule
forbids (R85, R309) is a model fault of the operation, not an ill-formed one. -/

namespace Sys2Proof

/-- The number of cells of the DIG space (R33, R60). -/
abbrev digCells : Nat := 64

/-- `i` is an operation of a core with `cap` message cells (R84). -/
def WellFormed (cap : Nat) : Instr → Bool
  | .wrCmd _ => true
  | .hashSha256 => true
  | .hashSha384 => true
  | .hashSha512 => true
  | .rdStatus => true
  | .wrLen _ => true
  | .rdLen => true
  | .wrMsg idx _ => idx.toNat < cap
  | .rdMsg idx => idx.toNat < cap
  | .rdDig idx => idx.toNat < digCells
  | .reset => true

end Sys2Proof
end

