-- ==== Sys2Proof/Decode.lean ====
section
/-! DEFINITION. The encodings of host operations and commands (spec/30_encoding.md), the decoder, and the encoder
written from the same tables.

A host operation stands in one of the three formats of spec/opcode_table.json: REQ (a bus request with the DATA that
stands beside a write, R80), CMD (a command word written to the CMD port, R81), RESET (the reset input, R82). -/

namespace Sys2Proof

/-- What the host can put to a core, before decoding. -/
inductive HostOp where
  /-- a bus access: REQ, and DATA beside it ("A write carries DATA, 32 bits, beside the request. DATA is not part of
  REQ", R80; a read's DATA is not looked at) -/
  | bus (req data : HWord)
  /-- a command word in the CMD format of R81, written to the CMD port: the pseudo-operations `hash.*` of R89. It is
  the bus write (0x80000000, word) by another encoding (log entry 4). -/
  | cmd (word : HWord)
  /-- the RESET input, asserted (R82) -/
  | reset
deriving DecidableEq, Repr

/-- Why the decoder rejects a host operation. -/
inductive DecodeError where
  /-- the row "any other" of R84: ILLEGAL_ACCESS, with the REQ -/
  | illegalAccess (req : HWord)
deriving DecidableEq, Repr

/-! ### Fields (R80, R83) -/

/-- `dir = REQ[31]`: true for a write. -/
def reqDir (req : HWord) : Bool := req.getLsbD 31

/-- `space = REQ[30:28]`. -/
def reqSpace (req : HWord) : BitVec 3 := req.extractLsb' 28 3

/-- `idx = REQ[27:0]`. -/
def reqIndex (req : HWord) : Index := req.extractLsb' 0 28

/-- Assemble a REQ from its fields: `D SSS IIII...` (R80). -/
def mkReq (dir : Bool) (space : BitVec 3) (idx : Index) : HWord := (BitVec.ofBool dir ++ space) ++ idx

/-- The REG space's code (R60). -/
abbrev spaceReg : BitVec 3 := 0b000#3
/-- The MSG space's code (R60). -/
abbrev spaceMsg : BitVec 3 := 0b001#3
/-- The DIG space's code (R60). -/
abbrev spaceDig : BitVec 3 := 0b010#3

/-- REG index of CMD (R22). -/
abbrev regCmd : Index := 0#28
/-- REG index of STATUS (R22). -/
abbrev regStatus : Index := 1#28
/-- REG index of LEN (R22). -/
abbrev regLen : Index := 2#28

/-- The command words of R85. -/
abbrev cmdSha256 : HWord := 0x00000001#32
/-- HASH.SHA384 (R85). -/
abbrev cmdSha384 : HWord := 0x00000011#32
/-- HASH.SHA512 (R85). -/
abbrev cmdSha512 : HWord := 0x00000021#32

/-! ### Decode (R84, R85) -/

/-- The decode of a bus access, total on every REQ: the first row of R84's table that applies. -/
def decodeBus (cap : Nat) (req data : HWord) : Except DecodeError Instr :=
  let dir := reqDir req
  let space := reqSpace req
  let idx := reqIndex req
  if dir = true ∧ space = spaceReg ∧ idx = regCmd then .ok (.wrCmd data)
  else if dir = false ∧ space = spaceReg ∧ idx = regStatus then .ok .rdStatus
  else if dir = true ∧ space = spaceReg ∧ idx = regLen then .ok (.wrLen data)
  else if dir = false ∧ space = spaceReg ∧ idx = regLen then .ok .rdLen
  else if dir = true ∧ space = spaceMsg ∧ idx.toNat < cap then .ok (.wrMsg idx data)
  else if dir = false ∧ space = spaceMsg ∧ idx.toNat < cap then .ok (.rdMsg idx)
  else if dir = false ∧ space = spaceDig ∧ idx.toNat < digCells then .ok (.rdDig idx)
  else .error (.illegalAccess req)

/-- The decode of a command word, total on every DATA (R85). A word that is no HASH word stays the write of that word
to CMD, whose meaning raises the fault R85 names (R200). -/
def decodeCmd (word : HWord) : Instr :=
  if word = cmdSha256 then .hashSha256
  else if word = cmdSha384 then .hashSha384
  else if word = cmdSha512 then .hashSha512
  else .wrCmd word

/-- The decoder, on a core with `cap` message cells. -/
def decode (cap : Nat) : HostOp → Except DecodeError Instr
  | .bus req data => decodeBus cap req data
  | .cmd word => .ok (decodeCmd word)
  | .reset => .ok .reset

/-! ### Encode -/

/-- The REQ of a WR_CMD (R88). -/
def reqWrCmd : HWord := mkReq true spaceReg regCmd
/-- The REQ of a RD_STATUS (R88). -/
def reqRdStatus : HWord := mkReq false spaceReg regStatus
/-- The REQ of a WR_LEN (R88). -/
def reqWrLen : HWord := mkReq true spaceReg regLen
/-- The REQ of a RD_LEN (R88). -/
def reqRdLen : HWord := mkReq false spaceReg regLen
/-- The REQ of a WR_MSG (R88). -/
def reqWrMsg (idx : Index) : HWord := mkReq true spaceMsg idx
/-- The REQ of a RD_MSG (R88). -/
def reqRdMsg (idx : Index) : HWord := mkReq false spaceMsg idx
/-- The REQ of a RD_DIG (R88). -/
def reqRdDig (idx : Index) : HWord := mkReq false spaceDig idx

/-- The encoder: the words of an instruction (R80, R81, R85, R88). -/
def encode : Instr → HostOp
  | .wrCmd data => .bus reqWrCmd data
  | .hashSha256 => .cmd cmdSha256
  | .hashSha384 => .cmd cmdSha384
  | .hashSha512 => .cmd cmdSha512
  | .rdStatus => .bus reqRdStatus 0
  | .wrLen data => .bus reqWrLen data
  | .rdLen => .bus reqRdLen 0
  | .wrMsg idx data => .bus (reqWrMsg idx) data
  | .rdMsg idx => .bus (reqRdMsg idx) 0
  | .rdDig idx => .bus (reqRdDig idx) 0
  | .reset => .reset

/-! ### The host's numbering of the opcode table -/

/-- The host operation that a word of spec/opcode_table.json stands for: bits 31:0 are the row's word and bits 63:32
the DATA beside it. The RESET row is one bit, so a word of at most 8 bits is in the RESET format. A 32-bit word is
read as a REQ; where it names no operation as a REQ it is read as a command word. The rows RD_STATUS (format REQ) and
HASH.SHA256 (format CMD) have the same 32-bit word 0x00000001: this function answers RD_STATUS for it (log entry 5). -/
def tableOp (nbits w : Nat) : Option HostOp :=
  if nbits ≤ 8 then (if w = 1 then some .reset else none)
  else
    let word := BitVec.ofNat 32 w
    let data := BitVec.ofNat 32 (w / 2 ^ 32)
    match decodeBus Config.resetMsgCap word data with
    | .ok _ => some (.bus word data)
    | .error _ =>
      if word = cmdSha256 ∨ word = cmdSha384 ∨ word = cmdSha512 then some (.cmd word) else some (.bus word data)

/-- The instruction the decoder reads from a word of the opcode table. -/
def decodeTableWord (nbits w : Nat) : Option Instr :=
  (tableOp nbits w).bind fun op => (decode Config.resetMsgCap op).toOption

end Sys2Proof
end

