-- ==== Sys2Proof/Machine/State.lean ====
section
/-! DEFINITION. The state of one core and of the host that drives it, as plain data, and the state after reset
(spec/10_state.md, spec/70_reset_and_hazards.md R400). Faults and refusals. -/

namespace Sys2Proof.Machine

/-- The memory of a buffer (MSG or DIG, R32, R33): the written cells, addresses strictly rising; a cell that is not
listed is unwritten (`Memory.unlisted`). -/
abbrev Memory := List Host.Cell

/-- The eight working variables (R28). -/
structure Work (w : Nat) where
  a : BitVec w
  b : BitVec w
  c : BitVec w
  d : BitVec w
  e : BitVec w
  f : BitVec w
  g : BitVec w
  h : BitVec w
deriving DecidableEq, Repr

/-- The datapath of one word width `w` with `R = 16 + e` rounds. `none` is the spec's own state "unset": "the model
holds no value" (R27 to R30, R400). Each component is always written as a whole. -/
structure Datapath (w e : Nat) where
  /-- HashState `H[0..8)` (R27) -/
  hash : Option (Vector (BitVec w) 8)
  /-- working variables `a..h` (R28) -/
  work : Option (Work w)
  /-- message schedule `W[0..R)` (R29) -/
  sched : Option (Vector (BitVec w) (16 + e))
  /-- block words `Mb[0..16)` (R30) -/
  block : Option (Vector (BitVec w) 16)
deriving DecidableEq, Repr

/-- The datapath of a core. Its width is the kind of the core: `w` = 32, `R` = 64 in `SHA256_core`; `w` = 64,
`R` = 80 in `SHA512_core` (R7, R27, R29). -/
inductive Engine where
  /-- the datapath of a `SHA256_core` -/
  | w32 (d : Datapath 32 48)
  /-- the datapath of a `SHA512_core` -/
  | w64 (d : Datapath 64 64)
deriving DecidableEq, Repr

/-- The fields of STATUS (R25). Its other bits are never written and read 0; the 32-bit word is `Status.word`. -/
structure Status where
  /-- bit 0 -/
  busy : Bool
  /-- bit 1 -/
  done : Bool
  /-- bits 5:4 -/
  lalg : Alg
deriving DecidableEq, Repr

/-- The sequencer's phase (R31). -/
inductive Seq where
  | idle
  | run
  | out
deriving DecidableEq, Repr

/-- The operations that read a cell of MSG, and so may raise UNWRITTEN_MESSAGE_BYTE (R301). -/
inductive MsgReader where
  /-- WR_CMD, for a cell of the message of the job it would start -/
  | wrCmd
  /-- RD_MSG, for the cell it names -/
  | rdMsg
deriving DecidableEq, Repr

/-- The operation that a model fault names (R313), as the column "raised by" of R301 has it. A HASH command is a
WR_CMD (R200). -/
inductive FaultOp where
  | wrCmd
  | wrLen
  | wrMsg
  | rdMsg
  | rdDig
  /-- the decode of an access that names no operation -/
  | decode
deriving DecidableEq, Repr

/-- The fault mark (R34): the codes of R301, each with the information R301 says it records. A model fault "names the
operation and its code" (R313): `FaultMark.op` and `FaultMark.code`. -/
inductive FaultMark where
  /-- code 1: raised by WR_CMD -/
  | reservedCommand (data : HWord)
  /-- code 2: raised by WR_CMD -/
  | reservedAlg (data : HWord)
  /-- code 3: raised by WR_CMD -/
  | unsupportedAlg (data : HWord) (kind : CoreKind)
  /-- code 4: raised by WR_CMD -/
  | commandWhileBusy (data : HWord)
  /-- code 5: raised by WR_LEN and WR_MSG -/
  | inputWriteWhileBusy (req data : HWord)
  /-- code 6: raised by WR_CMD -/
  | lengthExceedsCapacity (len : HWord)
  /-- code 7: raised by WR_CMD and RD_MSG, the mark says by which (R313); the lowest unwritten index -/
  | unwrittenMessageByte (reader : MsgReader) (idx : Nat)
  /-- code 8: raised by RD_DIG -/
  | digestNotReady (req : HWord)
  /-- code 9: raised by RD_DIG -/
  | digestIndexOutOfRange (req : HWord)
  /-- code 10: raised by decode -/
  | illegalAccess (req : HWord)
  /-- code 11: raised by WR_MSG -/
  | dataOutOfRange (req data : HWord)
deriving DecidableEq, Repr

/-- One turn of the interleaving of the two agents (R72), as an input from outside: which agent moves and, for the
host, its operation. -/
inductive Event where
  /-- the host performs one operation -/
  | host (op : HostOp)
  /-- the core takes one micro-step of its job (R177's split of CoreRun) -/
  | coreMicro
  /-- the core takes its step CoreRun (R177): the job to its end -/
  | coreRun
deriving DecidableEq, Repr

/-- The state of one core and its host. -/
structure State where
  /-- MSG_CAP (R8): a parameter, never written -/
  msgCap : MsgCap
  /-- HashState, working variables, schedule and block words (R27 to R30); its width is CORE_KIND -/
  engine : Engine
  /-- STATUS (R25) -/
  status : Status
  /-- LEN (R26) -/
  len : HWord
  /-- the message buffer MSG (R32) -/
  msg : Memory
  /-- the digest buffer DIG (R33) -/
  dig : Memory
  /-- `seq` (R31) -/
  seq : Seq
  /-- `i`, the block index (R31) -/
  blockIdx : Option Nat
  /-- `N`, the block count of the job (R31) -/
  blockCount : Option Nat
  /-- `t`, the round index (R31) -/
  round : Option Nat
  /-- JALG, the latched algorithm (R31) -/
  jalg : Alg
  /-- the model's own field: block `i` is in `Mb`, its schedule in `W` and `H` in the working variables, so that the
  next micro-step is a round or the chaining, not MD_LOAD (log entry 8) -/
  loaded : Bool
  /-- the fault mark (R34); `none` is the spec's value "none" -/
  fault : Option FaultMark
  /-- the model's own field: the rest of the interleaving, next turn first (R72; log entry 2) -/
  input : List Event
  /-- the model's own field: the host's read values (R410), last read first (log entry 7) -/
  reads : List HWord
deriving DecidableEq, Repr

/-- Why a step answers no next state. Neither is raised by an operation of the host that the spec gives an effect. -/
inductive Fault where
  /-- Raised by every step, and by every meaning, in a state whose fault mark is set: no step of any agent is enabled
  there, RESET included (R300, R34). Safe: nothing can be claimed of what follows a model fault. -/
  | modelFault (m : FaultMark)
  /-- Raised by the core's steps and by RD_DIG where they would read a component that is unset or a cell that is
  unwritten. Safe, and no run reaches it: "no rule reads the component before a rule writes it" (R400). -/
  | noValue
deriving DecidableEq, Repr

/-- Why the model gives an instruction no meaning. Safe: nothing can be claimed of such a step. -/
inductive Refusal where
  /-- the instruction with this mnemonic of spec/opcode_table.json has no meaning yet; raised by exec's arms -/
  | notModelled (mnemonic : String)
deriving DecidableEq, Repr

/-- The outcome of a step or of a meaning. -/
abbrev Result := Host.Outcome State Fault Refusal

/-- A datapath with every component unset (R400). -/
def Datapath.unset {w e : Nat} : Datapath w e where
  hash := none
  work := none
  sched := none
  block := none

/-- The datapath of a core of kind `k`, unset (R400). -/
def Engine.unset : CoreKind → Engine
  | .sha256Core => .w32 Datapath.unset
  | .sha512Core => .w64 Datapath.unset

/-- CORE_KIND (R8), which is the width of the datapath (R27). -/
def Engine.kind : Engine → CoreKind
  | .w32 _ => .sha256Core
  | .w64 _ => .sha512Core

/-- CORE_KIND of the core in `s`. -/
def State.kind (s : State) : CoreKind := s.engine.kind

/-- The reset state of a core of kind `k` with capacity `cap` (R400), driven by a host whose remaining turns are
`input` and whose reads so far are `reads`. -/
def State.resetOf (k : CoreKind) (cap : MsgCap) (input : List Event) (reads : List HWord) : State where
  msgCap := cap
  engine := .unset k
  status := { busy := false, done := false, lalg := .sha256 }
  len := 0x00000000#32
  msg := []
  dig := []
  seq := .idle
  blockIdx := none
  blockCount := none
  round := none
  jalg := .sha256
  loaded := false
  fault := none
  input := input
  reads := reads

/-- The machine right after reset (R400), with no host operation to come (log entries 2 and 3). -/
def State.reset : State := .resetOf Config.resetKind Config.resetMsgCap [] []

end Sys2Proof.Machine
end

