-- ==== Sys2Proof/Machine/Ops.lean ====
section
/-! DEFINITION. The operations the meanings share: the two byte buffers, the fault mark, a read's result, and RESET.

Every meaning is written over these. A model fault is the only exception this hardware has (spec/60_exceptions.md
R311, R313): `State.raiseFault` takes it. There is no return from one (R314: "No return-from-trap operation
exists"). -/

namespace Sys2Proof.Machine

/-! ### The byte buffers (R32, R33, R60) -/

/-- What a cell that is not listed reads as: it is unwritten, it holds no byte (R32, R33). -/
def Memory.unlisted : Option Byte := none

/-- The canonical form: addresses strictly rising, so no address is listed twice. No entry equals what an unlisted
cell reads as, since every entry holds a byte. -/
abbrev Memory.wf (m : Memory) : Prop := m.Pairwise fun x y => x.1 < y.1

/-- The byte of a cell, if it is written: `MemRead(addr, 1)` (R13). -/
def Memory.read (m : Memory) (a : Nat) : Option Byte :=
  match m with
  | [] => Memory.unlisted
  | (b, v) :: rest => if a = b then some v else Memory.read rest a

/-- Store one byte: `MemWrite(addr, 1, v)` (R13). Rewriting a cell replaces its byte (R203). -/
def Memory.write (m : Memory) (a : Nat) (v : Byte) : Memory :=
  match m with
  | [] => [(a, v)]
  | (b, x) :: rest =>
    if a < b then (a, v) :: (b, x) :: rest
    else if a = b then (a, v) :: rest
    else (b, x) :: Memory.write rest a v

/-- Store consecutive bytes from address `a` on, one `MemWrite` each, in increasing order (R174). -/
def Memory.writeAll (m : Memory) (a : Nat) : List Byte → Memory
  | [] => m
  | v :: vs => Memory.writeAll (m.write a v) (a + 1) vs

/-- The `n` bytes from address `a` on, if every one of the cells is written. -/
def Memory.readAll (m : Memory) (a : Nat) : Nat → Option (List Byte)
  | 0 => some []
  | n + 1 =>
    match m.read a with
    | none => none
    | some v => (Memory.readAll m (a + 1) n).map (v :: ·)

/-- The lowest unwritten cell among the `n` cells from address `a` on (R200, R301 code 7). -/
def Memory.firstUnwritten (m : Memory) (a : Nat) : Nat → Option Nat
  | 0 => none
  | n + 1 => if m.read a = none then some a else Memory.firstUnwritten m (a + 1) n

/-- The message of a job, `MSG[0..LEN)` (R26), if every byte of it is written. -/
def State.message (s : State) : Option (List Byte) := s.msg.readAll 0 s.len.toNat

/-! ### The fault mark (R34, R300, R301) -/

/-- The number of a fault code (R301). -/
def FaultMark.code : FaultMark → Nat
  | .reservedCommand _ => 1
  | .reservedAlg _ => 2
  | .unsupportedAlg _ _ => 3
  | .commandWhileBusy _ => 4
  | .inputWriteWhileBusy _ _ => 5
  | .lengthExceedsCapacity _ => 6
  | .unwrittenMessageByte _ _ => 7
  | .digestNotReady _ => 8
  | .digestIndexOutOfRange _ => 9
  | .illegalAccess _ => 10
  | .dataOutOfRange _ _ => 11

/-- The operation that a model fault names (R313). Code 5 is raised by two operations, which the REQ it records tells
apart (R301). -/
def FaultMark.op : FaultMark → FaultOp
  | .reservedCommand _ | .reservedAlg _ | .unsupportedAlg _ _ | .commandWhileBusy _ | .lengthExceedsCapacity _ => .wrCmd
  | .inputWriteWhileBusy req _ => if req = reqWrLen then .wrLen else .wrMsg
  | .unwrittenMessageByte .wrCmd _ => .wrCmd
  | .unwrittenMessageByte .rdMsg _ => .rdMsg
  | .digestNotReady _ | .digestIndexOutOfRange _ => .rdDig
  | .illegalAccess _ => .decode
  | .dataOutOfRange _ _ => .wrMsg

/-- Set the fault mark. -/
def State.withFault (s : State) (m : FaultMark) : State := { s with fault := some m }

/-- `raise Fault(code)` (R300): "sets `fault <- code`", and "every other state component keeps the value it had before
the operation". -/
def State.raiseFault (s : State) (m : FaultMark) : Result := .next (s.withFault m)

/-- "No operation is enabled while `fault ≠ none`" (48_host_operations.md, R300); otherwise the operation `r`. -/
def State.ifEnabled (s : State) (r : Result) : Result :=
  match s.fault with
  | some m => .fault (.modelFault m)
  | none => r

/-- A step that may meet a component without a value; no run does (R400). -/
def Result.ofOption : Option State → Result
  | some s => .next s
  | none => .fault .noValue

/-! ### Updates of single components -/

/-- The value a read returns to the host (R83, R410). -/
def State.withRead (s : State) (v : HWord) : State := { s with reads := v :: s.reads }

/-- `LEN <- v`. -/
def State.withLen (s : State) (v : HWord) : State := { s with len := v }

/-- `MemWrite_MSG(a, 1, v)`. -/
def State.withMsgByte (s : State) (a : Nat) (v : Byte) : State := { s with msg := s.msg.write a v }

/-- The rest of the interleaving. -/
def State.withInput (s : State) (l : List Event) : State := { s with input := l }

/-- RESET (R206): "every piece of state takes its reset value" (R400). The host's own turns and the values it has read
are no state of the core. -/
def State.afterReset (s : State) : State := .resetOf s.kind s.msgCap s.input s.reads

end Sys2Proof.Machine
end

