-- ==== Sys2Proof/Machine/Operands.lean ====
section
/-! DEFINITION. Operand assembly (spec/30_encoding.md R83): the fields of DATA, and the value a byte read returns. The
fields of REQ are in Sys2Proof/Decode.lean, since the decoder reads them. -/

namespace Sys2Proof.Machine

/-- `op = DATA[3:0]` (R81, R83). -/
def cmdOp (data : HWord) : BitVec 4 := data.extractLsb' 0 4

/-- `alg = DATA[5:4]` (R81, R83). -/
def cmdAlg (data : HWord) : BitVec 2 := data.extractLsb' 4 2

/-- `rsv = DATA[31:6]` (R81, R83). -/
def cmdRsv (data : HWord) : BitVec 26 := data.extractLsb' 6 26

/-- The OP value of HASH (R81). -/
abbrev opHash : BitVec 4 := 0x1#4

/-- `DATA[7:0]`, the byte a WR_MSG writes (R83). -/
def dataByte (data : HWord) : Byte := data.extractLsb' 0 8

/-- `DATA[31:8]`, which must be 0 in a WR_MSG (R67, R83). -/
def dataHigh (data : HWord) : BitVec 24 := data.extractLsb' 8 24

/-- `zext_32(byte)`, the value RD_MSG and RD_DIG return (R67, R83). -/
def byteValue (b : Byte) : HWord := b.setWidth 32

/-- The selector's two bits (R23, R25). -/
def algCode : Alg → BitVec 2
  | .sha256 => 0
  | .sha384 => 1
  | .sha512 => 2

/-- The algorithm a selector names; 3 is reserved (R23). -/
def algOfCode (c : BitVec 2) : Option Alg :=
  if c = 0 then some .sha256 else if c = 1 then some .sha384 else if c = 2 then some .sha512 else none

end Sys2Proof.Machine
end

