-- ==== Sys2Proof/Machine/Flags.lean ====
section
/-! DEFINITION. STATUS, the only status word of this hardware (spec/10_state.md R25, R35): its word, and its two
writers. There are no condition codes, and no operation of the datapath writes a flag. -/

namespace Sys2Proof.Machine

/-- The 32 bits of STATUS: `zext_32(LALG ‖ 0b00 ‖ DONE ‖ BUSY)` (R201). -/
def Status.word (f : Status) : HWord :=
  (algCode f.lalg ++ 0b00#2 ++ BitVec.ofBool f.done ++ BitVec.ofBool f.busy).setWidth 32

/-- Acceptance of a HASH command: `LALG <- alg`, `DONE <- 0`, `BUSY <- 1` (R200). -/
def Status.accept (_f : Status) (alg : Alg) : Status := { lalg := alg, done := false, busy := true }

/-- Job completion: `BUSY <- 0`, `DONE <- 1` (R174). -/
def Status.complete (f : Status) : Status := { f with busy := false, done := true }

end Sys2Proof.Machine
end

