-- ==== Sys2Proof/Machine/WordOps.lean ====
section
/-! DEFINITION. The word operations (spec/40_word_ops.md), each once for every width `w`; the 32-bit and the 64-bit
units use them with their own amounts (R111). Addition mod 2^w, AND, OR, XOR and complement (R102, R103) are those of
`BitVec w`. -/

namespace Sys2Proof.Machine

/-- `rotr_w(x, n) = ((x >> n) | (x << (w - n))) mod 2^w` (R100). -/
def rotr {w : Nat} (x : BitVec w) (n : Nat) : BitVec w := (x >>> n) ||| (x <<< (w - n))

/-- `shr_w(x, n) = floor(x / 2^n)` (R101). -/
def shr {w : Nat} (x : BitVec w) (n : Nat) : BitVec w := x >>> n

/-- `Ch(x,y,z) = (x & y) xor (~x & z)` (R104). -/
def choose {w : Nat} (x y z : BitVec w) : BitVec w := (x &&& y) ^^^ (~~~x &&& z)

/-- `Maj(x,y,z) = (x&y) xor (x&z) xor (y&z)` (R105). -/
def majority {w : Nat} (x y z : BitVec w) : BitVec w := (x &&& y) ^^^ (x &&& z) ^^^ (y &&& z)

/-- The form of lower_sigma_0 and lower_sigma_1: two rotates and a shift (R106, R107). -/
def mixShift {w : Nat} (r : Nat × Nat × Nat) (x : BitVec w) : BitVec w := rotr x r.1 ^^^ rotr x r.2.1 ^^^ shr x r.2.2

/-- The form of upper_sigma_0 and upper_sigma_1: three rotates (R108, R109). -/
def mixRotate {w : Nat} (q : Nat × Nat × Nat) (x : BitVec w) : BitVec w :=
  rotr x q.1 ^^^ rotr x q.2.1 ^^^ rotr x q.2.2

/-- lower_sigma_0, written σ0 (R106). -/
def lowerSigma0 {w e : Nat} (c : WordConfig w e) (x : BitVec w) : BitVec w := mixShift c.lower0 x

/-- lower_sigma_1, written σ1 (R107). -/
def lowerSigma1 {w e : Nat} (c : WordConfig w e) (x : BitVec w) : BitVec w := mixShift c.lower1 x

/-- upper_sigma_0, written Σ0 (R108). -/
def upperSigma0 {w e : Nat} (c : WordConfig w e) (x : BitVec w) : BitVec w := mixRotate c.upper0 x

/-- upper_sigma_1, written Σ1 (R109). -/
def upperSigma1 {w e : Nat} (c : WordConfig w e) (x : BitVec w) : BitVec w := mixRotate c.upper1 x

end Sys2Proof.Machine
end

