-- ==== Sys2Proof/Machine/Padder.lean ====
section
/-! DEFINITION. Big-endian byte sequences (spec/00_scope.md R12) and the Padder (spec/41_padder.md). -/

namespace Sys2Proof.Machine

/-- Byte `k` of `BE_n(v)`: `(v >> 8(n-1-k)) & 0xFF` (R12). -/
def beByte (n v k : Nat) : Byte := BitVec.ofNat 8 (v / 2 ^ (8 * (n - 1 - k)))

/-- `BE_n(v)`, the `n`-byte big-endian encoding of `v` (R12). -/
def beBytes (n v : Nat) : List Byte := (List.range n).map (beByte n v)

/-- `fromBE(X)`: the number whose big-endian bytes are `X` (R12). -/
def fromBE : List Byte → Nat
  | [] => 0
  | b :: rest => b.toNat * 2 ^ (8 * rest.length) + fromBE rest

/-- `wb = w/8`, the bytes of a word (R140). -/
def wordBytes (w : Nat) : Nat := w / 8

/-- `B = 16·wb`, the bytes of a block (R7, R140). -/
def blockBytes (w : Nat) : Nat := 16 * wordBytes w

/-- `Lb = 2·wb`, the bytes of the length field (R7: "2 × word width"). -/
def lengthBytes (w : Nat) : Nat := 2 * wordBytes w

/-- `N`, the number of blocks of a message of `n` bytes at word width `w` (R131). -/
def blocksFor (w n : Nat) : Nat :=
  n / blockBytes w + (if n % blockBytes w ≥ blockBytes w - lengthBytes w then 2 else 1)

/-- The number of zero bytes between the marker and the length field: `N·B - Lb - n - 1` (R134). -/
def zeroFill (w n : Nat) : Nat := blocksFor w n * blockBytes w - lengthBytes w - n - 1

/-- The padded message `P` (R132): the message, the marker 0x80 (R133), the zero fill, and the bit length `8·n` as a
big-endian number of `Lb` bytes. -/
def padded (w : Nat) (m : List Byte) : List Byte :=
  m ++ 0x80#8 :: (List.replicate (zeroFill w m.length) 0x00#8 ++ beBytes (lengthBytes w) (8 * m.length))

end Sys2Proof.Machine
end

