-- ==== Sys2Proof/Machine/BlockParser.lean ====
section
/-! DEFINITION. The BlockParser (spec/42_block_parser.md). -/

namespace Sys2Proof.Machine

/-- Word `j` of block `i` of the padded message `p` (R140): `fromBE(P[i·B + j·wb .. i·B + (j+1)·wb))`. -/
def blockWord (w : Nat) (p : List Byte) (i j : Nat) : BitVec w :=
  BitVec.ofNat w (fromBE ((p.drop (i * blockBytes w + j * wordBytes w)).take (wordBytes w)))

/-- `Block(i)`: the 16 words of block `i` (R140, R142). -/
def parseBlock (w : Nat) (p : List Byte) (i : Nat) : Vector (BitVec w) 16 := Vector.ofFn fun j => blockWord w p i j.val

end Sys2Proof.Machine
end

