-- ==== Sys2Proof/Machine/Scheduler.lean ====
section
/-! DEFINITION. The message schedulers (spec/43_message_scheduler.md). -/

namespace Sys2Proof.Machine

/-- The next entry of a schedule of which entries `0..16+n` stand, with `t = 16+n` (R150, R151):
`σ1(W[t-2]) + W[t-7] + σ0(W[t-15]) + W[t-16]`. -/
def nextScheduleWord {w e n : Nat} (c : WordConfig w e) (W : Vector (BitVec w) (16 + n)) : BitVec w :=
  lowerSigma1 c W[16 + n - 2] + W[16 + n - 7] + lowerSigma0 c W[16 + n - 15] + W[16 + n - 16]

/-- The first `16 + n` entries of the schedule of a block: "entries 0–15 equal the block's words verbatim" (R150). -/
def scheduleTo {w e : Nat} (c : WordConfig w e) (mb : Vector (BitVec w) 16) : (n : Nat) → Vector (BitVec w) (16 + n)
  | 0 => mb
  | n + 1 =>
    let W := scheduleTo c mb n
    W.push (nextScheduleWord c W)

/-- The whole schedule `W[0..R)` of a block. -/
def schedule {w e : Nat} (c : WordConfig w e) (mb : Vector (BitVec w) 16) : Vector (BitVec w) (16 + e) :=
  scheduleTo c mb e

/-- `message_scheduler_32bit` (R150). -/
def messageScheduler32 (mb : Vector (BitVec 32) 16) : Vector (BitVec 32) 64 := schedule config32 mb

/-- `message_scheduler_64bit` (R151). -/
def messageScheduler64 (mb : Vector (BitVec 64) 16) : Vector (BitVec 64) 80 := schedule config64 mb

end Sys2Proof.Machine
end

