-- ==== Sys2Proof/Machine/Round.lean ====
section
/-! DEFINITION. The compression rounds (spec/44_compression_round.md). -/

namespace Sys2Proof.Machine

/-- `T1 = h + Σ1(e) + Ch(e, f, g) + Kt + Wt` (R160). -/
def roundT1 {w e : Nat} (c : WordConfig w e) (s : Work w) (kt wt : BitVec w) : BitVec w :=
  s.h + upperSigma1 c s.e + choose s.e s.f s.g + kt + wt

/-- `T2 = Σ0(a) + Maj(a, b, c)` (R160). -/
def roundT2 {w e : Nat} (c : WordConfig w e) (s : Work w) : BitVec w := upperSigma0 c s.a + majority s.a s.b s.c

/-- One round from the working state `s` with the round constant `kt` and the schedule word `wt` (R160, R161):
`(T1 + T2, a, b, c, d + T1, e, f, g)`, simultaneously. -/
def compressionRound {w e : Nat} (c : WordConfig w e) (s : Work w) (kt wt : BitVec w) : Work w where
  a := roundT1 c s kt wt + roundT2 c s
  b := s.a
  c := s.b
  d := s.c
  e := s.d + roundT1 c s kt wt
  f := s.e
  g := s.f
  h := s.g

/-- `compression_round_32bit` (R160). -/
def compressionRound32 (s : Work 32) (kt wt : BitVec 32) : Work 32 := compressionRound config32 s kt wt

/-- `compression_round_64bit` (R161). -/
def compressionRound64 (s : Work 64) (kt wt : BitVec 64) : Work 64 := compressionRound config64 s kt wt

end Sys2Proof.Machine
end

