-- ==== Sys2Proof/Machine/Compressor.lean ====
section
/-! DEFINITION. merkle_damgard_compressor (spec/45_chaining_and_digest.md R170 to R173): first its pure functions, then
its operations on the registers of the datapath. Every definition is generic in the word width; the `Engine` operations run the
one of the core's own width. -/

namespace Sys2Proof.Machine

/-! ### Pure functions (R173) -/

/-- `(a, ..., h) <- (H[0], ..., H[7])` (R172). -/
def loadWork {w : Nat} (H : Vector (BitVec w) 8) : Work w where
  a := H[0]
  b := H[1]
  c := H[2]
  d := H[3]
  e := H[4]
  f := H[5]
  g := H[6]
  h := H[7]

/-- The chaining step `H[0] <- H[0] + a; ...; H[7] <- H[7] + h` (R172). -/
def chainWork {w : Nat} (H : Vector (BitVec w) 8) (s : Work w) : Vector (BitVec w) 8 :=
  #v[H[0] + s.a, H[1] + s.b, H[2] + s.c, H[3] + s.d, H[4] + s.e, H[5] + s.f, H[6] + s.g, H[7] + s.h]

/-- Round `t` with `K[t]` and `W[t]` (R162). A `t` outside `[0, R)` names no round and leaves the working state. -/
def roundAt {w e : Nat} (c : WordConfig w e) (W : Vector (BitVec w) (16 + e)) (s : Work w) (t : Nat) : Work w :=
  if h : t < 16 + e then compressionRound c s c.roundK[t] W[t] else s

/-- The working state after the rounds `0, ..., t-1` from `s`: `s_t` of R173. -/
def roundsFrom {w e : Nat} (c : WordConfig w e) (W : Vector (BitVec w) (16 + e)) (s : Work w) : Nat → Work w
  | 0 => s
  | t + 1 => roundAt c W (roundsFrom c W s t) t

/-- `compress_w(Hin, Mb)` (R173): `Hout[k] = Hin[k] + s_R[k]`. -/
def compress {w e : Nat} (c : WordConfig w e) (H : Vector (BitVec w) 8) (mb : Vector (BitVec w) 16) :
    Vector (BitVec w) 8 :=
  chainWork H (roundsFrom c (schedule c mb) (loadWork H) (16 + e))

/-- `Hc` of R176 after the blocks `0, ..., i-1` of the padded message `p`. -/
def compressBlocks {w e : Nat} (c : WordConfig w e) (H : Vector (BitVec w) 8) (p : List Byte) :
    Nat → Vector (BitVec w) 8
  | 0 => H
  | i + 1 => compress c (compressBlocks c H p i) (parseBlock w p i)

/-! ### Operations on the datapath's registers -/

/-- MD_INIT's part of the datapath: `H <- IV` (R170). -/
def Datapath.init {w e : Nat} (d : Datapath w e) (iv : Vector (BitVec w) 8) : Datapath w e :=
  { d with hash := some iv }

/-- MD_LOAD of block `i` of the padded message `p`: `Mb <- Block(i)`, `W <- SCHED_w(Mb)` (R171), and the first line of
MD_BLOCK, `(a, ..., h) <- H` (R172). Without a value only where `H` is unset. -/
def Datapath.load {w e : Nat} (c : WordConfig w e) (p : List Byte) (i : Nat) (d : Datapath w e) :
    Option (Datapath w e) :=
  match d.hash with
  | none => none
  | some H =>
    let mb := parseBlock w p i
    some { d with block := some mb, sched := some (schedule c mb), work := some (loadWork H) }

/-- Round `t` on the working variables (R172). Without a value only where they or `W` are unset. -/
def Datapath.round {w e : Nat} (c : WordConfig w e) (t : Nat) (d : Datapath w e) : Option (Datapath w e) :=
  match d.work, d.sched with
  | some s, some W => some { d with work := some (roundAt c W s t) }
  | _, _ => none

/-- The chaining step (R172): the `H` added to is the one from before the block's rounds, since no round writes `H`
(R406). Without a value only where `H` or the working variables are unset. -/
def Datapath.chain {w e : Nat} (d : Datapath w e) : Option (Datapath w e) :=
  match d.hash, d.work with
  | some H, some s => some { d with hash := some (chainWork H s) }
  | _, _ => none

/-- `R`, the number of rounds of the core's width (R7). -/
def Engine.rounds : Engine → Nat
  | .w32 _ => 64
  | .w64 _ => 80

/-- `w`, the word width of the core (R7). -/
def Engine.width : Engine → Nat
  | .w32 _ => 32
  | .w64 _ => 64

/-- MD_INIT on the core's datapath with the initial HashState of `alg` (R170): IV256, IV384 or IV512. `none` exactly
where the kind of the core does not accept `alg` (R24). -/
def Engine.init : Engine → Alg → Option Engine
  | .w32 d, .sha256 => some (.w32 (d.init iv256))
  | .w32 _, .sha384 => none
  | .w32 _, .sha512 => none
  | .w64 _, .sha256 => none
  | .w64 d, .sha384 => some (.w64 (d.init iv384))
  | .w64 d, .sha512 => some (.w64 (d.init iv512))

/-- MD_LOAD on the core's datapath (R171): `message_scheduler_32bit` or `message_scheduler_64bit`. -/
def Engine.load (p : List Byte) (i : Nat) : Engine → Option Engine
  | .w32 d => (d.load config32 p i).map .w32
  | .w64 d => (d.load config64 p i).map .w64

/-- One round on the core's datapath: `compression_round_32bit` or `compression_round_64bit` (R160, R161). -/
def Engine.round (t : Nat) : Engine → Option Engine
  | .w32 d => (d.round config32 t).map .w32
  | .w64 d => (d.round config64 t).map .w64

/-- The chaining step on the core's datapath (R172). -/
def Engine.chain : Engine → Option Engine
  | .w32 d => d.chain.map .w32
  | .w64 d => d.chain.map .w64

end Sys2Proof.Machine
end

