-- ==== Sys2Proof/Machine/Digest.lean ====
section
/-! DEFINITION. The DigestAssembler (spec/45_chaining_and_digest.md R174, R175) and the job function (R176). -/

namespace Sys2Proof.Machine

/-- `S = BE_{w/8}(H[0]) ‖ ... ‖ BE_{w/8}(H[7])` (R174). -/
def serialize {w : Nat} (H : Vector (BitVec w) 8) : List Byte :=
  H.toList.flatMap fun x => beBytes (wordBytes w) x.toNat

/-- The final HashState of R176 for a message `m`, serialised: `IV` and the width are the variant's. -/
def hashMessage {w e : Nat} (c : WordConfig w e) (iv : Vector (BitVec w) 8) (m : List Byte) : List Byte :=
  serialize (compressBlocks c iv (padded w m) (blocksFor w m.length))

/-- The job function `SHA(v, M)` (R176). -/
def sha (v : Alg) (m : List Byte) : List Byte :=
  match v with
  | .sha256 => (hashMessage config32 iv256 m).take (digestLen .sha256)
  | .sha384 => (hashMessage config64 iv384 m).take (digestLen .sha384)
  | .sha512 => (hashMessage config64 iv512 m).take (digestLen .sha512)

/-- `S` of the core's HashState (R174). Without a value only where `H` is unset. -/
def Engine.serialize : Engine → Option (List Byte)
  | .w32 d => d.hash.map Machine.serialize
  | .w64 d => d.hash.map Machine.serialize

end Sys2Proof.Machine
end

