-- ==== Sys2Proof/Machine/Job.lean ====
section
/-! DEFINITION. The core agent: acceptance of a job (spec/45_chaining_and_digest.md R170), its micro-steps and its step
CoreRun (R177).

R177 gives the core one step, CoreRun, and lets a model split it into micro-steps ("one per MD_LOAD, one per round, one
per chaining, and one for DIGEST"). This model has both: a turn of the core is a micro-step (`State.coreMicro`) or
CoreRun (`State.coreRun`), as `State.input` says (log entry 2). -/

namespace Sys2Proof.Machine

/-! ### Updates of the job's state -/

/-- Acceptance of a job with algorithm `alg`, datapath `g` after MD_INIT and `n` blocks: the last three lines of R200
and R170. -/
def State.startJob (s : State) (alg : Alg) (g : Engine) (n : Nat) : State :=
  { s with
    jalg := alg
    status := s.status.accept alg
    engine := g
    blockCount := some n
    blockIdx := some 0
    round := some 0
    loaded := false
    seq := .run }

/-- After MD_LOAD: the block is loaded and the round index is 0 (R171, R172). -/
def State.blockLoaded (s : State) (g : Engine) : State := { s with engine := g, round := some 0, loaded := true }

/-- After a round: the next round index is `t` (R172). -/
def State.roundDone (s : State) (g : Engine) (t : Nat) : State := { s with engine := g, round := some t }

/-- After the chaining step of a block: the block index is `i` (R172), and `seq` is OUT when no block is left. -/
def State.blockChained (s : State) (g : Engine) (i : Nat) (q : Seq) : State :=
  { s with engine := g, blockIdx := some i, loaded := false, seq := q }

/-- Job completion (R174). -/
def State.jobDone (s : State) (dig : Memory) : State :=
  { s with dig := dig, status := s.status.complete, seq := .idle }

/-! ### The parts of CoreRun -/

/-- MD_LOAD(i) (R171), of the block that the block index names. -/
def State.mdLoad (s : State) : Option State :=
  match s.message, s.blockIdx with
  | some m, some i => (s.engine.load (padded s.engine.width m) i).map s.blockLoaded
  | _, _ => none

/-- One round of MD_BLOCK (R172), the one that the round index names. -/
def State.mdRound (s : State) : Option State :=
  match s.round with
  | some t => (s.engine.round t).map fun g => s.roundDone g (t + 1)
  | none => none

/-- The chaining step of MD_BLOCK, and `i <- i + 1` (R172). -/
def State.mdChain (s : State) : Option State :=
  match s.blockIdx, s.blockCount with
  | some i, some n => s.engine.chain.map fun g => s.blockChained g (i + 1) (if i + 1 < n then .run else .out)
  | _, _ => none

/-- DIGEST (R174): the leading `DL` bytes of `S` into DIG. -/
def State.digest (s : State) : Option State :=
  s.engine.serialize.map fun bytes => s.jobDone (s.dig.writeAll 0 (bytes.take (digestLen s.jalg)))

/-! ### The micro-step -/

/-- One micro-step of the core (R177). While `i < N`: MD_LOAD of block `i`, then its `R` rounds, then its chaining, one
each; after the last chaining, DIGEST. An idle core has no step to take (R321). -/
def State.coreMicro (s : State) : Result :=
  match s.seq with
  | .idle => .next s
  | .out => Result.ofOption s.digest
  | .run =>
    match s.blockIdx, s.blockCount, s.round with
    | some i, some n, some t =>
      if i < n then
        if s.loaded then
          if t < s.engine.rounds then Result.ofOption s.mdRound else Result.ofOption s.mdChain
        else Result.ofOption s.mdLoad
      else Result.ofOption s.digest
    | _, _, _ => .fault .noValue

/-! ### CoreRun -/

/-- `k` rounds (R172). -/
def State.mdRounds : Nat → State → Option State
  | 0, s => some s
  | k + 1, s => s.mdRound.bind (State.mdRounds k)

/-- MD_BLOCK (R172) after the load of the working variables: the `R` rounds, then the chaining step. -/
def State.mdBlock (s : State) : Option State := (State.mdRounds s.engine.rounds s).bind State.mdChain

/-- `k` times MD_LOAD and MD_BLOCK: the loop of R177. -/
def State.mdBlocks : Nat → State → Option State
  | 0, s => some s
  | k + 1, s => s.mdLoad.bind fun s => s.mdBlock.bind (State.mdBlocks k)

/-- CoreRun (R177): `while i < N: MD_LOAD(i); MD_BLOCK(i)`, then DIGEST. It is the core's whole step, enabled when a
job runs. Taken in the midst of a block it begins that block again, from the `H` that no round has written (R406), so
it ends as the micro-steps would. -/
def State.coreRun (s : State) : Result :=
  match s.seq with
  | .idle => .next s
  | .run | .out =>
    match s.blockIdx, s.blockCount with
    | some i, some n => Result.ofOption ((State.mdBlocks (n - i) s).bind State.digest)
    | _, _ => .fault .noValue

end Sys2Proof.Machine
end

