-- ==== Sys2Proof/Machine/HostWrite.lean ====
section
/-! DEFINITION. The host operations that write: WR_CMD and the three HASH commands, WR_LEN, WR_MSG
(spec/48_host_operations.md R200, R202, R203), with their faults in the order of spec/60_exceptions.md R310. -/

namespace Sys2Proof.Machine

/-- WR_CMD of the command word `data` once it is known to be HASH with the legal selector `alg` (R200, from the check
of Accepts on). -/
def State.acceptHash (s : State) (data : HWord) (alg : Alg) : Result :=
  match s.engine.init alg with
  | none => s.raiseFault (.unsupportedAlg data s.kind)
  | some g =>
    if s.status.busy then s.raiseFault (.commandWhileBusy data)
    else if s.len.toNat > s.msgCap.val then s.raiseFault (.lengthExceedsCapacity s.len)
    else
      match s.msg.firstUnwritten 0 s.len.toNat with
      | some j => s.raiseFault (.unwrittenMessageByte .wrCmd j)
      | none => .next (s.startJob alg g (blocksFor (algWidth alg) s.len.toNat))

/-- WR_CMD (R200): the decode of DATA (R85), then acceptance. -/
def State.writeCommand (s : State) (data : HWord) : Result :=
  if cmdRsv data ≠ 0 ∨ cmdOp data ≠ opHash then s.raiseFault (.reservedCommand data)
  else
    match algOfCode (cmdAlg data) with
    | none => s.raiseFault (.reservedAlg data)
    | some alg => s.acceptHash data alg

/-- WR_CMD (R200). -/
def execWrCmd (data : HWord) (s : State) : Result := s.ifEnabled (s.writeCommand data)

/-- HASH.SHA256 (R200, R85). -/
def execHashSha256 (s : State) : Result := s.ifEnabled (s.acceptHash cmdSha256 .sha256)

/-- HASH.SHA384 (R200, R85). -/
def execHashSha384 (s : State) : Result := s.ifEnabled (s.acceptHash cmdSha384 .sha384)

/-- HASH.SHA512 (R200, R85). -/
def execHashSha512 (s : State) : Result := s.ifEnabled (s.acceptHash cmdSha512 .sha512)

/-- WR_LEN (R202). Every 32-bit value is stored. -/
def execWrLen (data : HWord) (s : State) : Result :=
  s.ifEnabled <|
    if s.status.busy then s.raiseFault (.inputWriteWhileBusy reqWrLen data) else .next (s.withLen data)

/-- WR_MSG (R203). An index that names no cell is ILLEGAL_ACCESS (R303); the decoder answers it before (R84). -/
def execWrMsg (idx : Index) (data : HWord) (s : State) : Result :=
  s.ifEnabled <|
    if s.msgCap.val ≤ idx.toNat then s.raiseFault (.illegalAccess (reqWrMsg idx))
    else if dataHigh data ≠ 0 then s.raiseFault (.dataOutOfRange (reqWrMsg idx) data)
    else if s.status.busy then s.raiseFault (.inputWriteWhileBusy (reqWrMsg idx) data)
    else .next (s.withMsgByte idx.toNat (dataByte data))

end Sys2Proof.Machine
end

