-- ==== Sys2Proof/Machine/HostRead.lean ====
section
/-! DEFINITION. The host operations that read: RD_STATUS, RD_LEN, RD_MSG, RD_DIG (spec/48_host_operations.md R201,
R207, R204, R205). A read changes no state of the core (R69); the value it returns goes to the host. -/

namespace Sys2Proof.Machine

/-- RD_STATUS (R201). -/
def execRdStatus (s : State) : Result := s.ifEnabled (.next (s.withRead s.status.word))

/-- RD_LEN (R207). -/
def execRdLen (s : State) : Result := s.ifEnabled (.next (s.withRead s.len))

/-- RD_MSG (R204). An index that names no cell is ILLEGAL_ACCESS (R303); the decoder answers it before (R84). -/
def execRdMsg (idx : Index) (s : State) : Result :=
  s.ifEnabled <|
    if s.msgCap.val ≤ idx.toNat then s.raiseFault (.illegalAccess (reqRdMsg idx))
    else
      match s.msg.read idx.toNat with
      | none => s.raiseFault (.unwrittenMessageByte .rdMsg idx.toNat)
      | some b => .next (s.withRead (byteValue b))

/-- RD_DIG (R205). An index of 64 or above is ILLEGAL_ACCESS (R303); the decoder answers it before (R84). While DONE
is 1 every `DIG[j]` with `j < DL` is written (R174), so the last case meets a byte in every run. -/
def execRdDig (idx : Index) (s : State) : Result :=
  s.ifEnabled <|
    if digCells ≤ idx.toNat then s.raiseFault (.illegalAccess (reqRdDig idx))
    else if s.status.done = false then s.raiseFault (.digestNotReady (reqRdDig idx))
    else if digestLen s.status.lalg ≤ idx.toNat then s.raiseFault (.digestIndexOutOfRange (reqRdDig idx))
    else
      match s.dig.read idx.toNat with
      | none => .fault .noValue
      | some b => .next (s.withRead (byteValue b))

end Sys2Proof.Machine
end

