-- ==== Sys2Proof/Machine/HostReset.lean ====
section
/-! DEFINITION. The RESET action (spec/48_host_operations.md R206). -/

namespace Sys2Proof.Machine

/-- RESET (R206): legal while BUSY, "not enabled in a faulted state". -/
def execReset (s : State) : Result := s.ifEnabled (.next s.afterReset)

end Sys2Proof.Machine
end

