-- ==== Sys2Proof/Machine/Dispatch.lean ====
section
/-! DEFINITION. The meaning of every instruction: one arm per constructor. -/

namespace Sys2Proof.Machine

/-- What an instruction does in a state. -/
def exec (i : Instr) (s : State) : Host.Outcome State Fault Refusal :=
  match i with
  | .wrCmd data => Sys2Proof.Machine.execWrCmd data s
  | .hashSha256 => Sys2Proof.Machine.execHashSha256 s
  | .hashSha384 => Sys2Proof.Machine.execHashSha384 s
  | .hashSha512 => Sys2Proof.Machine.execHashSha512 s
  | .rdStatus => Sys2Proof.Machine.execRdStatus s
  | .wrLen data => Sys2Proof.Machine.execWrLen data s
  | .rdLen => Sys2Proof.Machine.execRdLen s
  | .wrMsg idx data => Sys2Proof.Machine.execWrMsg idx data s
  | .rdMsg idx => Sys2Proof.Machine.execRdMsg idx s
  | .rdDig idx => Sys2Proof.Machine.execRdDig idx s
  | .reset => Sys2Proof.Machine.execReset s

end Sys2Proof.Machine
end

