-- ==== Sys2Proof/Machine/Turn.lean ====
section
/-! DEFINITION. One turn of either agent (spec/20_memory.md R72), and the placing of a host operation. -/

namespace Sys2Proof.Machine

/-- The fault a rejected host operation raises (R84's row "any other"). -/
def decodeFault : DecodeError → FaultMark
  | .illegalAccess req => .illegalAccess req

/-- A turn of the host: decode the operation (R84), and run it, or raise the fault of the rejection. -/
def State.hostTurn (s : State) (op : HostOp) : Result :=
  match decode s.msgCap.val op with
  | .ok i => exec i s
  | .error e => s.raiseFault (decodeFault e)

/-- A turn of the interleaving. A turn of the core that finds no job passes without effect. -/
def State.turn (s : State) : Event → Result
  | .host op => s.hostTurn op
  | .coreMicro => s.coreMicro
  | .coreRun => s.coreRun

/-- The turn that comes next, where the fault mark is not set: the first of the interleaving's rest. Where the host
performs nothing more, the core ends its job (R408), or, idle, keeps all its state (R321). -/
def State.nextTurn (s : State) : Result :=
  match s.input with
  | [] => s.coreRun
  | ev :: rest => (s.withInput rest).turn ev

/-- `s` with one more host operation placed first in the rest of the interleaving. -/
def State.placeOp (s : State) (op : HostOp) : State := s.withInput (.host op :: s.input)

end Sys2Proof.Machine
end

