-- ==== Sys2Proof/Machine/Step.lean ====
section
/-! DEFINITION. One step of the machine, and the placing of the instruction it runs next. -/

namespace Sys2Proof.Machine

/-- One step: no step of any agent once the fault mark is set (R300); otherwise the next turn of the interleaving
(R72). -/
def step (s : State) : Host.Outcome State Fault Refusal :=
  match s.fault with
  | some m => .fault (.modelFault m)
  | none => s.nextTurn

/-- `s` with the host operation that the opcode table's word `w` stands for as the very next turn. A word that stands
for none (the RESET input, not asserted) leaves `s`. -/
def State.withFetchWord (s : State) (nbits w : Nat) : State :=
  match tableOp nbits w with
  | some op => s.placeOp op
  | none => s

end Sys2Proof.Machine
end

