-- ==== Sys2Proof/Machine/HostScript.lean ====
section
/-! DEFINITION. Host scripts (spec/30_encoding.md R88, R89): the lines of a host program, their text, and the bus
requests they stand for. -/

namespace Sys2Proof.Machine

/-- One line of a host script: an operation of R88 or a pseudo-operation of R89. -/
inductive ScriptLine where
  /-- `wr CMD, <imm32>` -/
  | wrCmd (imm : HWord)
  /-- `rd STATUS` -/
  | rdStatus
  /-- `wr LEN, <imm32>` -/
  | wrLen (imm : HWord)
  /-- `rd LEN` -/
  | rdLen
  /-- `wr MSG[<n>], <imm8>` -/
  | wrMsg (n : Nat) (imm : Byte)
  /-- `rd MSG[<n>]` -/
  | rdMsg (n : Nat)
  /-- `rd DIG[<n>]` -/
  | rdDig (n : Nat)
  /-- `reset` -/
  | reset
  /-- `hash.sha256` -/
  | hashSha256
  /-- `hash.sha384` -/
  | hashSha384
  /-- `hash.sha512` -/
  | hashSha512
  /-- `load "<bytes>"` -/
  | load (bytes : List Byte)
  /-- `wait` -/
  | wait
  /-- `rddig <n>` -/
  | rddig (n : Nat)
deriving DecidableEq, Repr

/-! ### Expansion -/

/-- `wr MSG[n], imm8`: "REQ 0x90000000 | n, DATA zext_32(imm8)" (R88). The INDEX field has 28 bits (R80): DESIGN
CHOICE, an `n` of 2^28 or above, which no capacity reaches and R88 and R89 say nothing of, wraps modulo 2^28 (log
entry 17). -/
def opWrMsg (n : Nat) (imm : Byte) : HostOp := .bus (reqWrMsg (BitVec.ofNat 28 n)) (byteValue imm)

/-- `wr MSG[j], b_j` for consecutive cells from `n` on (R89, the first lines of `load`). -/
def opsWrMsgs (n : Nat) : List Byte → List HostOp
  | [] => []
  | b :: bs => opWrMsg n b :: opsWrMsgs (n + 1) bs

/-- The operations of a line (R88, R89). DESIGN CHOICE: an index wraps modulo 2^28, and the LEN of a `load` modulo
2^32, where the spec gives none that large a meaning (log entry 17). A `wait` is a loop of `rd STATUS`; `polls` is the number of reads this run of
it takes, which the interleaving decides (`waitReads`). -/
def ScriptLine.expand (polls : Nat) : ScriptLine → List HostOp
  | .wrCmd imm => [.bus reqWrCmd imm]
  | .rdStatus => [.bus reqRdStatus 0]
  | .wrLen imm => [.bus reqWrLen imm]
  | .rdLen => [.bus reqRdLen 0]
  | .wrMsg n imm => [opWrMsg n imm]
  | .rdMsg n => [.bus (reqRdMsg (BitVec.ofNat 28 n)) 0]
  | .rdDig n => [.bus (reqRdDig (BitVec.ofNat 28 n)) 0]
  | .reset => [.reset]
  | .hashSha256 => [.bus reqWrCmd cmdSha256]
  | .hashSha384 => [.bus reqWrCmd cmdSha384]
  | .hashSha512 => [.bus reqWrCmd cmdSha512]
  | .load bytes => opsWrMsgs 0 bytes ++ [.bus reqWrLen (BitVec.ofNat 32 bytes.length)]
  | .wait => List.replicate polls (.bus reqRdStatus 0)
  | .rddig n => (List.range n).map fun j => .bus (reqRdDig (BitVec.ofNat 28 j)) 0

/-- The values that the reads of one `wait` may return, in order: it "ends at the first read with bit 1 (DONE) set"
(R89). -/
def waitReads : List HWord → Bool
  | [] => false
  | [v] => v.getLsbD 1
  | v :: vs => !v.getLsbD 1 && waitReads vs

/-! ### Text -/

/-- The value of a digit; hexadecimal digits in either case. -/
def digitValue (c : Char) : Option Nat :=
  if '0' ≤ c ∧ c ≤ '9' then some (c.toNat - '0'.toNat)
  else if 'a' ≤ c ∧ c ≤ 'f' then some (c.toNat - 'a'.toNat + 10)
  else if 'A' ≤ c ∧ c ≤ 'F' then some (c.toNat - 'A'.toNat + 10)
  else none

/-- The number that digits of base `b` write, from the value `acc` of the digits before them. -/
def digitsValue (b acc : Nat) : List Char → Option Nat
  | [] => some acc
  | c :: cs =>
    match digitValue c with
    | some d => if d < b then digitsValue b (acc * b + d) cs else none
    | none => none

/-- "Immediates are written in hex (`0x..`) or decimal" (R88). -/
def numberValue : List Char → Option Nat
  | [] => none
  | '0' :: 'x' :: c :: cs => digitsValue 16 0 (c :: cs)
  | c :: cs => digitsValue 10 0 (c :: cs)

/-- A number below `2^w`. -/
def wordValue (w : Nat) (cs : List Char) : Option (BitVec w) :=
  match numberValue cs with
  | some n => if n < 2 ^ w then some (BitVec.ofNat w n) else none
  | none => none

/-- The words of a line, between blanks and commas, however many stand together (DESIGN CHOICE, log entry 17); `cur` is the word read so far, backwards. -/
def lineWords (cur : List Char) : List Char → List (List Char)
  | [] => if cur = [] then [] else [cur.reverse]
  | c :: cs =>
    if c = ' ' ∨ c = ',' ∨ c = '\t' then (if cur = [] then lineWords [] cs else cur.reverse :: lineWords [] cs)
    else lineWords (c :: cur) cs

/-- Text with nothing but blanks and a comment. DESIGN CHOICE: a blank is a space or a tab; a comma is none, so commas
alone are no blank text (log entry 17). -/
def isBlankLine (cs : List Char) : Bool := (cs.takeWhile (· ≠ ';')).all fun c => c = ' ' ∨ c = '\t'

/-- The number in `[<n>]` after the name of a space, an INDEX of REQ (R80). -/
def indexValue (cs : List Char) : Option Nat :=
  match cs.reverse with
  | ']' :: n =>
    match numberValue n.reverse with
    | some n => if n < 2 ^ 28 then some n else none
    | none => none
  | _ => none

/-- "The string is taken as bytes: an ASCII string" (R89), up to the closing quotation mark. DESIGN CHOICE: only blanks and
a comment may follow the mark, of which the spec says nothing (log entry 17). -/
def asciiBytes : List Char → Option (List Byte)
  | [] => none
  | '"' :: cs => if isBlankLine cs then some [] else none
  | c :: cs => if c.toNat < 128 then (asciiBytes cs).map (BitVec.ofNat 8 c.toNat :: ·) else none

/-- `x"<hex>"` "for raw bytes" (R89), up to the closing quotation mark. DESIGN CHOICE: only blanks and a comment may
follow the mark, of which the spec says nothing (log entry 17). -/
def hexBytes : List Char → Option (List Byte)
  | '"' :: cs => if isBlankLine cs then some [] else none
  | c :: d :: cs =>
    match digitsValue 16 0 [c, d] with
    | some v => (hexBytes cs).map (BitVec.ofNat 8 v :: ·)
    | none => none
  | _ => none

/-- A line from its words. -/
def wordsLine : List (List Char) → Option ScriptLine
  | [['w', 'r'], ['C', 'M', 'D'], imm] => (wordValue 32 imm).map .wrCmd
  | [['r', 'd'], ['S', 'T', 'A', 'T', 'U', 'S']] => some .rdStatus
  | [['w', 'r'], ['L', 'E', 'N'], imm] => (wordValue 32 imm).map .wrLen
  | [['r', 'd'], ['L', 'E', 'N']] => some .rdLen
  | [['w', 'r'], 'M' :: 'S' :: 'G' :: '[' :: n, imm] => (indexValue n).bind fun n => (wordValue 8 imm).map (.wrMsg n)
  | [['r', 'd'], 'M' :: 'S' :: 'G' :: '[' :: n] => (indexValue n).map .rdMsg
  | [['r', 'd'], 'D' :: 'I' :: 'G' :: '[' :: n] => (indexValue n).map .rdDig
  | [['r', 'e', 's', 'e', 't']] => some .reset
  | [['h', 'a', 's', 'h', '.', 's', 'h', 'a', '2', '5', '6']] => some .hashSha256
  | [['h', 'a', 's', 'h', '.', 's', 'h', 'a', '3', '8', '4']] => some .hashSha384
  | [['h', 'a', 's', 'h', '.', 's', 'h', 'a', '5', '1', '2']] => some .hashSha512
  | [['w', 'a', 'i', 't']] => some .wait
  | [['r', 'd', 'd', 'i', 'g'], n] => (numberValue n).map .rddig
  | _ => none

/-- One line of text that stands for an operation. "A `;` starts a comment" (R88); the bytes of a `load` stand between
quotation marks, so they are read first. A line of blanks or a comment alone stands for no operation, and the answer
is none, as for an ill-formed line; `parseScript` has the two apart (DESIGN CHOICE, log entry 17). -/
def parseLine : List Char → Option ScriptLine
  | 'l' :: 'o' :: 'a' :: 'd' :: ' ' :: '"' :: cs => (asciiBytes cs).map .load
  | 'l' :: 'o' :: 'a' :: 'd' :: ' ' :: 'x' :: '"' :: cs => (hexBytes cs).map .load
  | cs => wordsLine (lineWords [] (cs.takeWhile (· ≠ ';')))

/-- The lines of a script: "one operation per line" (R88). DESIGN CHOICE: a line with nothing but blanks and a comment,
as the programs of spec/95_test_vectors.md have them, stands for no operation (log entry 17). An ill-formed line makes
the script ill formed. -/
def parseScript : List (List Char) → Option (List ScriptLine)
  | [] => some []
  | l :: ls =>
    if isBlankLine l then parseScript ls
    else (parseLine l).bind fun line => (parseScript ls).map (line :: ·)

end Sys2Proof.Machine
end

