-- ==== Sys2Proof/Safety.lean ====
section
/-! DEFINITION. What counts as a safe run, and the invariants of every state a run reaches, in the terms the
statements use.

A claim about a host program must assume that no fault is recorded (spec/60_exceptions.md, introduction); the end of a
run is spec/70_reset_and_hazards.md R410. -/

namespace Sys2Proof.Machine

/-- A run has ended (R410): the host has performed its last operation, `seq = IDLE` and `fault = none`. -/
def State.Ended (s : State) : Prop := s.input = [] ∧ s.seq = .idle ∧ s.fault = none

/-- `k` steps lead from `s` to `t` and no fault is recorded in `t`; by R300 none was recorded before. -/
def SafeRun (k : Nat) (s t : State) : Prop := Host.Core.run Sys2Proof.core k s = .next t ∧ t.fault = none

/-- The invariants of STATUS (R25) and of JALG (R31). A job has been accepted since reset exactly when `N` is set. -/
structure State.StatusOk (s : State) : Prop where
  /-- "`BUSY = 1` and `DONE = 1` never hold together" -/
  busyOrDone : ¬ (s.status.busy = true ∧ s.status.done = true)
  /-- "`BUSY = 1` exactly when `seq ≠ IDLE`" -/
  busyIff : s.status.busy = true ↔ s.seq ≠ .idle
  /-- JALG is "equal to `STATUS.LALG`" -/
  latched : s.jalg = s.status.lalg
  /-- "After any job has been accepted, `LALG` is an ALG the instance accepts" -/
  accepted : s.blockCount.isSome = true → accepts s.kind s.status.lalg = true
  /-- a job runs, or a digest is there, only after a job has been accepted -/
  wasAccepted : s.status.busy = true ∨ s.status.done = true → s.blockCount.isSome = true

/-- The number of DIG cells a core of kind `k` can write (R33: "In `SHA256_core` only `DIG[0..32)` can ever be
written"). -/
def digLimit : CoreKind → Nat
  | .sha256Core => 32
  | .sha512Core => 64

/-- The buffers are canonical, hold only cells that exist (R32, R33), and while DONE is 1 the whole digest is there
(R72 (c)). -/
structure State.BuffersOk (s : State) : Prop where
  msgWf : s.msg.wf
  msgIn : ∀ cell ∈ s.msg, cell.1 < s.msgCap.val
  digWf : s.dig.wf
  digIn : ∀ cell ∈ s.dig, cell.1 < digLimit s.kind
  digestThere : s.status.done = true → ∀ j, j < digestLen s.status.lalg → (s.dig.read j).isSome = true

/-- A datapath in the midst of block `i` of the padded message `p`: `H` is the initial value compressed with the
blocks before `i` (R176), and, once the block is loaded, `Mb`, `W` and the working variables after `t` rounds are
those of R171 and R173. -/
def Datapath.AtBlock {w e : Nat} (c : WordConfig w e) (iv : Vector (BitVec w) 8) (p : List Byte) (i t : Nat)
    (loaded : Bool) (d : Datapath w e) : Prop :=
  d.hash = some (compressBlocks c iv p i) ∧
    (loaded = true →
      d.block = some (parseBlock w p i) ∧
      d.sched = some (schedule c (parseBlock w p i)) ∧
      d.work = some (roundsFrom c (schedule c (parseBlock w p i)) (loadWork (compressBlocks c iv p i)) t))

/-- The same of a core's datapath, with the configuration of its width and the initial value of the job's algorithm. -/
def Engine.AtBlock (alg : Alg) (p : List Byte) (i t : Nat) (loaded : Bool) : Engine → Prop
  | .w32 d => alg = .sha256 ∧ d.AtBlock config32 iv256 p i t loaded
  | .w64 d =>
    (alg = .sha384 ∧ d.AtBlock config64 iv384 p i t loaded) ∨ (alg = .sha512 ∧ d.AtBlock config64 iv512 p i t loaded)

/-- The state of a running job on the message `m`, in block `i` of `n`, at round index `t` (R31, R171 to R176). -/
structure State.JobAt (s : State) (m : List Byte) (i n t : Nat) : Prop where
  message : s.message = some m
  fits : m.length ≤ s.msgCap.val
  index : s.blockIdx = some i
  count : s.blockCount = some n
  roundIdx : s.round = some t
  blocks : n = blocksFor s.engine.width m.length
  roundLe : t ≤ s.engine.rounds
  running : s.seq = .run → i < n
  leaving : s.seq = .out → i = n ∧ s.loaded = false
  data : s.engine.AtBlock s.jalg (padded s.engine.width m) i t s.loaded

/-- While a job runs, its state is that of some message and some place in it. -/
def State.JobOk (s : State) : Prop := s.seq ≠ .idle → ∃ m i n t, s.JobAt m i n t

/-- The invariant of the machine. -/
structure State.Inv (s : State) : Prop where
  status : s.StatusOk
  buffers : s.BuffersOk
  job : s.JobOk

/-- `k` micro-steps of the core, one after another (R177). -/
def State.coreMicros : Nat → State → Result
  | 0, s => .next s
  | k + 1, s =>
    match s.coreMicro with
    | .next t => State.coreMicros k t
    | .fault r => .fault r
    | .refused r => .refused r

/-- Two states that a host cannot tell apart by what it may access (R21, R320): everything but the datapath's contents
and the place in the running job is equal. -/
structure State.SameToHost (s t : State) : Prop where
  kind : s.kind = t.kind
  msgCap : s.msgCap = t.msgCap
  status : s.status = t.status
  len : s.len = t.len
  msg : s.msg = t.msg
  dig : s.dig = t.dig
  fault : s.fault = t.fault
  reads : s.reads = t.reads

/-- Two results that a host cannot tell apart. -/
def SameResultToHost : Result → Result → Prop
  | .next s, .next t => s.SameToHost t
  | .fault r, .fault r' => r = r'
  | .refused r, .refused r' => r = r'
  | _, _ => False

end Sys2Proof.Machine
end

