-- ==== Sys2Proof/Certificates/Slice0/Obligations.lean ====
section
/-! DEFINITION. The statements for the provers, from the spec's numbered rules. Each docstring names the rule; where a
clause is the model's choice it says so. A statement about an operation's next state writes the whole next state out as
an update of the old one, so it states the frame: everything it does not name is unchanged. -/

open Sys2Proof Sys2Proof.Machine

/-! ## Encodings (spec/30_encoding.md) -/

/-- Words written out from R84, R85 and R88 decode to their operations, and words beside them do not. -/
def Obligations.SpecWordsDecode : Prop :=
  ∀ data : HWord,
    decode 256 (.bus 0x80000000#32 data) = .ok (.wrCmd data) ∧
    decode 256 (.bus 0x00000001#32 data) = .ok .rdStatus ∧
    decode 256 (.bus 0x80000002#32 data) = .ok (.wrLen data) ∧
    decode 256 (.bus 0x00000002#32 data) = .ok .rdLen ∧
    decode 256 (.bus 0x900000FF#32 data) = .ok (.wrMsg 255#28 data) ∧
    decode 256 (.bus 0x10000000#32 data) = .ok (.rdMsg 0#28) ∧
    decode 256 (.bus 0x2000003F#32 data) = .ok (.rdDig 63#28) ∧
    decode 256 (.cmd 0x00000001#32) = .ok .hashSha256 ∧
    decode 256 (.cmd 0x00000011#32) = .ok .hashSha384 ∧
    decode 256 (.cmd 0x00000021#32) = .ok .hashSha512 ∧
    decode 256 .reset = .ok .reset ∧
    decode 256 (.bus 0x90000100#32 data) = .error (.illegalAccess 0x90000100#32) ∧
    decode 256 (.bus 0x20000040#32 data) = .error (.illegalAccess 0x20000040#32)

/-- R84: the decode of a bus access, total on every REQ, read on the number of the REQ (the table's match and mask
words), and the fault that the row "any other" raises; that its turn is taken off the list is the model's (log entry 2).
Beside it the decode of a command word in the CMD format: R85's three HASH words are the HASH commands, and every other
word is WR_CMD of it, which is the model's (log entry 4). -/
def Obligations.BusDecodeFollowsTable : Prop :=
  (∀ (cap : Nat) (req data : HWord),
    decode cap (.bus req data) =
      if req.toNat = 0x80000000 then .ok (.wrCmd data)
      else if req.toNat = 0x00000001 then .ok .rdStatus
      else if req.toNat = 0x80000002 then .ok (.wrLen data)
      else if req.toNat = 0x00000002 then .ok .rdLen
      else if req.toNat / 2 ^ 28 = 0x9 ∧ req.toNat % 2 ^ 28 < cap then
        .ok (.wrMsg (BitVec.ofNat 28 (req.toNat % 2 ^ 28)) data)
      else if req.toNat / 2 ^ 28 = 0x1 ∧ req.toNat % 2 ^ 28 < cap then .ok (.rdMsg (BitVec.ofNat 28 (req.toNat % 2 ^ 28)))
      else if req.toNat / 2 ^ 28 = 0x2 ∧ req.toNat % 2 ^ 28 < 64 then .ok (.rdDig (BitVec.ofNat 28 (req.toNat % 2 ^ 28)))
      else .error (.illegalAccess req)) ∧
  (∀ (s : State) (req data : HWord) (rest : List Event) (err : DecodeError),
    s.fault = none → s.input = .host (.bus req data) :: rest → decode s.msgCap.val (.bus req data) = .error err →
    step s = .next { s with input := rest, fault := some (.illegalAccess req) }) ∧
  (∀ (cap : Nat) (word : HWord),
    decode cap (.cmd word) =
      if word.toNat = 0x00000001 then .ok .hashSha256
      else if word.toNat = 0x00000011 then .ok .hashSha384
      else if word.toNat = 0x00000021 then .ok .hashSha512
      else .ok (.wrCmd word))

/-- R303: each of the listed accesses is the model fault ILLEGAL_ACCESS. The fields are those of R80, read on the
number of the REQ. That the turn is taken off the list is the model's (log entry 2). -/
def Obligations.IllegalAccessesFault : Prop :=
  ∀ (s : State) (req data : HWord) (rest : List Event) (dir space idx : Nat),
    dir = req.toNat / 2 ^ 31 → space = req.toNat / 2 ^ 28 % 8 → idx = req.toNat % 2 ^ 28 →
    ((dir = 0 ∧ space = 0 ∧ idx = 0) ∨ (dir = 1 ∧ space = 0 ∧ idx = 1) ∨ (space = 0 ∧ 3 ≤ idx) ∨
      (space = 1 ∧ s.msgCap.val ≤ idx) ∨ (space = 2 ∧ (dir = 1 ∨ 64 ≤ idx)) ∨ 3 ≤ space) →
    s.fault = none → s.input = .host (.bus req data) :: rest →
    step s = .next { s with input := rest, fault := some (.illegalAccess req) }

/-- Decode and encode agree on every well-formed instruction, with every operand. -/
def Obligations.DecodeOfEncode : Prop :=
  ∀ (cap : Nat) (i : Instr), WellFormed cap i = true → decode cap (encode i) = .ok i

/-- No two requests name one operation, and what the decoder answers is well formed. -/
def Obligations.RequestsNameOperationsUniquely : Prop :=
  ∀ (cap : Nat) (i : Instr) (req data : HWord), decode cap (.bus req data) = .ok i →
    WellFormed cap i = true ∧ ∀ req' data' : HWord, decode cap (.bus req' data') = .ok i → req' = req

/-- `hash.sha256` expands to `wr CMD, 0x00000001`, and so on (R89's first three lines): a HASH command and the write of
its word to CMD are one operation, in every state. -/
def Obligations.HashCommandsAreCmdWrites : Prop :=
  ∀ s : State,
    exec .hashSha256 s = exec (.wrCmd 0x00000001#32) s ∧
    exec .hashSha384 s = exec (.wrCmd 0x00000011#32) s ∧
    exec .hashSha512 s = exec (.wrCmd 0x00000021#32) s

/-! ## The step and the model fault (spec/20_memory.md R72, spec/60_exceptions.md) -/

/-- A step whose turn is the host's runs the decoded operation. (That the turn is taken off the interleaving's rest is
the model's, log entry 2.) -/
def Obligations.StepRunsDecodedOperation : Prop :=
  ∀ (s : State) (op : HostOp) (rest : List Event) (i : Instr),
    s.fault = none → s.input = .host op :: rest → decode s.msgCap.val op = .ok i →
    step s = exec i { s with input := rest }

/-- A step whose turn is the core's takes the core's step; where the host performs nothing more the core ends its job.
An idle core keeps all its state (R321), whatever turn of the core comes: no step of it is enabled then (R177). The
turns are the model's (log entry 2). -/
def Obligations.StepTakesCoreTurn : Prop :=
  ∀ (s : State) (rest : List Event), s.fault = none →
    (s.input = .coreMicro :: rest → step s = State.coreMicro { s with input := rest }) ∧
    (s.input = .coreRun :: rest → step s = State.coreRun { s with input := rest }) ∧
    (s.seq = .idle → s.input = .coreMicro :: rest ∨ s.input = .coreRun :: rest → step s = .next { s with input := rest }) ∧
    (s.input = [] → s.seq ≠ .idle → step s = s.coreRun) ∧
    (s.input = [] → s.seq = .idle → step s = .next s)

/-- The word of the opcode table that `withFetchWord` places is what the very next step runs (the model's, log entry
2: an operation comes from outside the core). -/
def Obligations.PlacedWordRunsNext : Prop :=
  ∀ (s : State) (nbits w : Nat) (op : HostOp) (i : Instr),
    s.fault = none → tableOp nbits w = some op → decode s.msgCap.val op = .ok i →
    step (s.withFetchWord nbits w) = exec i s

/-- R300: a model fault sets the mark and has no other effect; once it is set no operation of the host, no RESET and no
step of the core is enabled, so the mark is never cleared. -/
def Obligations.ModelFaultIsPermanent : Prop :=
  (∀ (i : Instr) (s t : State) (m : FaultMark), s.fault = none → exec i s = .next t → t.fault = some m →
    t = { s with fault := some m }) ∧
  (∀ (i : Instr) (s : State) (m : FaultMark), s.fault = some m →
    exec i s = .fault (.modelFault m) ∧ step s = .fault (.modelFault m))

/-- R301's numbers, and its column "raised by" with R313 ("names the operation and its code"): the code of every fault
mark, and, for every operation, the codes it raises and the operation its mark names. -/
def Obligations.RaisedCodesFollowTable : Prop :=
  (∀ (i : Instr) (s t : State) (m : FaultMark), s.fault = none → WellFormed s.msgCap.val i = true →
    exec i s = .next t → t.fault = some m →
    (m.code ∈ [1, 2, 3, 4, 6, 7] ∧ m.op = .wrCmd ∧
      (i = .hashSha256 ∨ i = .hashSha384 ∨ i = .hashSha512 ∨ ∃ data, i = .wrCmd data)) ∨
    (m.code = 5 ∧ m.op = .wrLen ∧ ∃ data, i = .wrLen data) ∨
    (m.code ∈ [5, 11] ∧ m.op = .wrMsg ∧ ∃ idx data, i = .wrMsg idx data) ∨
    (m.code = 7 ∧ m.op = .rdMsg ∧ ∃ idx, i = .rdMsg idx) ∨
    (m.code ∈ [8, 9] ∧ m.op = .rdDig ∧ ∃ idx, i = .rdDig idx)) ∧
  ∀ (req data : HWord) (kind : CoreKind) (reader : MsgReader) (idx : Nat),
    (FaultMark.reservedCommand data).code = 1 ∧ (FaultMark.reservedAlg data).code = 2 ∧
    (FaultMark.unsupportedAlg data kind).code = 3 ∧ (FaultMark.commandWhileBusy data).code = 4 ∧
    (FaultMark.inputWriteWhileBusy req data).code = 5 ∧ (FaultMark.lengthExceedsCapacity data).code = 6 ∧
    (FaultMark.unwrittenMessageByte reader idx).code = 7 ∧ (FaultMark.digestNotReady req).code = 8 ∧
    (FaultMark.digestIndexOutOfRange req).code = 9 ∧ (FaultMark.illegalAccess req).code = 10 ∧
    (FaultMark.illegalAccess req).op = .decode ∧ (FaultMark.dataOutOfRange req data).code = 11

/-! ## The host operations (spec/48_host_operations.md) -/

/-- R201: RD_STATUS, the read of REQ 0x00000001, returns `BUSY | DONE << 1 | LALG << 4` at any time and changes nothing else. -/
def Obligations.ReadStatusReturnsStatus : Prop :=
  ∀ (s : State) (data : HWord), s.fault = none →
    decode s.msgCap.val (.bus 0x00000001#32 data) = .ok .rdStatus ∧
    ∃ v : HWord, exec .rdStatus s = .next { s with reads := v :: s.reads } ∧
      v.toNat = (if s.status.busy then 1 else 0) + (if s.status.done then 2 else 0) +
        16 * (match s.status.lalg with | .sha256 => 0 | .sha384 => 1 | .sha512 => 2)

/-- R207: RD_LEN, the read of REQ 0x00000002, returns LEN at any time and changes nothing else. -/
def Obligations.ReadLenReturnsLen : Prop :=
  ∀ (s : State) (data : HWord), s.fault = none →
    decode s.msgCap.val (.bus 0x00000002#32 data) = .ok .rdLen ∧
    exec .rdLen s = .next { s with reads := s.len :: s.reads }

/-- R204: RD_MSG, the read of REQ `0x10000000 | idx`, returns the byte of a written cell, zero-extended, while a job runs too, and faults on an unwritten
one. -/
def Obligations.ReadMsgReturnsByte : Prop :=
  ∀ (s : State) (idx : Index) (data : HWord), s.fault = none → idx.toNat < s.msgCap.val →
    decode s.msgCap.val (.bus (0x10000000#32 ||| idx.setWidth 32) data) = .ok (.rdMsg idx) ∧
    (s.msg.read idx.toNat = none →
      exec (.rdMsg idx) s = .next { s with fault := some (.unwrittenMessageByte .rdMsg idx.toNat) }) ∧
    (∀ b : Byte, s.msg.read idx.toNat = some b →
      ∃ v : HWord, v.toNat = b.toNat ∧ exec (.rdMsg idx) s = .next { s with reads := v :: s.reads })

/-- R205: RD_DIG, the read of REQ `0x20000000 | idx`, with its two faults in their order and the byte it returns; no
operation but a command or RESET ends the digest's readability. -/
def Obligations.ReadDigestReturnsByte : Prop :=
  ∀ (s : State) (idx : Index) (data : HWord), s.fault = none → idx.toNat < 64 →
    decode s.msgCap.val (.bus (0x20000000#32 ||| idx.setWidth 32) data) = .ok (.rdDig idx) ∧
    (s.status.done = false → ∃ req, req = 0x20000000#32 ||| idx.setWidth 32 ∧
      exec (.rdDig idx) s = .next { s with fault := some (.digestNotReady req) }) ∧
    (s.status.done = true → digestLen s.status.lalg ≤ idx.toNat → ∃ req, req = 0x20000000#32 ||| idx.setWidth 32 ∧
      exec (.rdDig idx) s = .next { s with fault := some (.digestIndexOutOfRange req) }) ∧
    (s.status.done = true → idx.toNat < digestLen s.status.lalg → ∀ b : Byte, s.dig.read idx.toNat = some b →
      ∃ v : HWord, v.toNat = b.toNat ∧ exec (.rdDig idx) s = .next { s with reads := v :: s.reads }) ∧
    (∀ (i : Instr) (t : State), i ∉ [.hashSha256, .hashSha384, .hashSha512, .reset] → (∀ word, i ≠ .wrCmd word) →
      exec i s = .next t → t.status = s.status ∧ t.dig = s.dig)

/-- In every state of the invariant, while DONE is 1, every byte of the digest can be read (R72 (c)). -/
def Obligations.DoneDigestIsReadable : Prop :=
  ∀ (s : State) (idx : Index), s.Inv → s.fault = none → s.status.done = true →
    idx.toNat < digestLen s.status.lalg →
    ∃ v : HWord, exec (.rdDig idx) s = .next { s with reads := v :: s.reads } ∧
      s.dig.read idx.toNat = some (v.setWidth 8)

/-- R202: WR_LEN, the write of REQ 0x80000002, stores every 32-bit value while no job runs, and faults while one does. -/
def Obligations.WriteLenStoresAnyValue : Prop :=
  ∀ (s : State) (data : HWord), s.fault = none →
    decode s.msgCap.val (.bus 0x80000002#32 data) = .ok (.wrLen data) ∧
    (s.status.busy = false → exec (.wrLen data) s = .next { s with len := data }) ∧
    (s.status.busy = true →
      exec (.wrLen data) s = .next { s with fault := some (.inputWriteWhileBusy 0x80000002#32 data) })

/-- R203: WR_MSG, the write of REQ `0x90000000 | idx`, with its two faults in their order, and the byte it writes; every other cell of MSG is unchanged. -/
def Obligations.WriteMsgStoresOneByte : Prop :=
  ∀ (s : State) (idx : Index) (data : HWord), s.fault = none → idx.toNat < s.msgCap.val →
    ∃ req : HWord, req = 0x90000000#32 ||| idx.setWidth 32 ∧
    decode s.msgCap.val (.bus req data) = .ok (.wrMsg idx data) ∧
    (256 ≤ data.toNat → exec (.wrMsg idx data) s = .next { s with fault := some (.dataOutOfRange req data) }) ∧
    (data.toNat < 256 → s.status.busy = true →
      exec (.wrMsg idx data) s = .next { s with fault := some (.inputWriteWhileBusy req data) }) ∧
    (data.toNat < 256 → s.status.busy = false →
      ∃ msg' : Memory, exec (.wrMsg idx data) s = .next { s with msg := msg' } ∧
        ∀ j, msg'.read j = if j = idx.toNat then some (BitVec.ofNat 8 data.toNat) else s.msg.read j)

/-- A host read of MSG returns the last value written to that element (R72 (a)): WR_MSG and then RD_MSG of one cell. -/
def Obligations.WrittenMsgByteReadsBack : Prop :=
  ∀ (s : State) (idx : Index) (data : HWord), s.fault = none → idx.toNat < s.msgCap.val → data.toNat < 256 →
    s.status.busy = false →
    ∃ t u : State, exec (.wrMsg idx data) s = .next t ∧ exec (.rdMsg idx) t = .next u ∧ u.reads = data :: s.reads ∧
      u.fault = none

/-- R304: every CMD value but the three HASH words and 0x00000031 is RESERVED_COMMAND, the value 0 too, whatever else
holds of the state (R310). -/
def Obligations.ReservedCommandsFault : Prop :=
  ∀ (s : State) (data : HWord), s.fault = none → data ∉ [0x00000001#32, 0x00000011#32, 0x00000021#32, 0x00000031#32] →
    exec (.wrCmd data) s = .next { s with fault := some (.reservedCommand data) }

/-- R302: the reserved selector, and a legal one the kind of core does not accept (R24), fault, whatever else holds of
the state (R310). -/
def Obligations.UnacceptedSelectorsFault : Prop :=
  ∀ s : State, s.fault = none →
    exec (.wrCmd 0x00000031#32) s = .next { s with fault := some (.reservedAlg 0x00000031#32) } ∧
    (s.kind = .sha512Core → ∀ i ∈ [Instr.hashSha256, .wrCmd 0x00000001#32],
      exec i s = .next { s with fault := some (.unsupportedAlg 0x00000001#32 .sha512Core) }) ∧
    (s.kind = .sha256Core → ∀ i ∈ [Instr.hashSha384, .wrCmd 0x00000011#32],
      exec i s = .next { s with fault := some (.unsupportedAlg 0x00000011#32 .sha256Core) }) ∧
    (s.kind = .sha256Core → ∀ i ∈ [Instr.hashSha512, .wrCmd 0x00000021#32],
      exec i s = .next { s with fault := some (.unsupportedAlg 0x00000021#32 .sha256Core) })

/-- R305: a second command, and a change of LEN or MSG, during a job fault. -/
def Obligations.WritesWhileBusyFault : Prop :=
  ∀ s : State, s.fault = none → s.status.busy = true →
    (s.kind = .sha256Core → ∀ i ∈ [Instr.hashSha256, .wrCmd 0x00000001#32],
      exec i s = .next { s with fault := some (.commandWhileBusy 0x00000001#32) }) ∧
    (s.kind = .sha512Core → ∀ i ∈ [Instr.hashSha384, .wrCmd 0x00000011#32],
      exec i s = .next { s with fault := some (.commandWhileBusy 0x00000011#32) }) ∧
    (s.kind = .sha512Core → ∀ i ∈ [Instr.hashSha512, .wrCmd 0x00000021#32],
      exec i s = .next { s with fault := some (.commandWhileBusy 0x00000021#32) }) ∧
    (∀ data, exec (.wrLen data) s = .next { s with fault := some (.inputWriteWhileBusy 0x80000002#32 data) }) ∧
    (∀ (idx : Index) (data : HWord), idx.toNat < s.msgCap.val → data.toNat < 256 →
      exec (.wrMsg idx data) s =
        .next { s with fault := some (.inputWriteWhileBusy (0x90000000#32 ||| idx.setWidth 32) data) })

/-- R306: a HASH command, in either encoding, with an accepted selector and no job running, faults on a LEN above the
capacity, whether or not the message is written (R310). -/
def Obligations.OversizeLengthFaults : Prop :=
  ∀ (s : State) (i : Instr) (alg : Alg),
    (i, alg) ∈ [(.hashSha256, .sha256), (.wrCmd 0x00000001#32, .sha256), (.hashSha384, .sha384),
      (.wrCmd 0x00000011#32, .sha384), (.hashSha512, .sha512), (.wrCmd 0x00000021#32, .sha512)] →
    s.fault = none → accepts s.kind alg = true → s.status.busy = false → s.msgCap.val < s.len.toNat →
    exec i s = .next { s with fault := some (.lengthExceedsCapacity s.len) }

/-- R307: a HASH command whose message includes an unwritten byte faults, with the lowest such index; an RD_MSG of an
unwritten byte faults. -/
def Obligations.UnwrittenMessageBytesFault : Prop :=
  (∀ (s : State) (i : Instr) (alg : Alg) (j : Nat),
    (i, alg) ∈ [(.hashSha256, .sha256), (.wrCmd 0x00000001#32, .sha256), (.hashSha384, .sha384),
      (.wrCmd 0x00000011#32, .sha384), (.hashSha512, .sha512), (.wrCmd 0x00000021#32, .sha512)] →
    s.fault = none → accepts s.kind alg = true → s.status.busy = false → s.len.toNat ≤ s.msgCap.val →
    j < s.len.toNat → s.msg.read j = none → (∀ k, k < j → s.msg.read k ≠ none) →
    exec i s = .next { s with fault := some (.unwrittenMessageByte .wrCmd j) }) ∧
  (∀ (s : State) (idx : Index), s.fault = none → idx.toNat < s.msgCap.val → s.msg.read idx.toNat = none →
    exec (.rdMsg idx) s = .next { s with fault := some (.unwrittenMessageByte .rdMsg idx.toNat) })

/-- The accepting case of R200, with R170: a HASH command, in either encoding, with an accepted selector, no job
running, and a message that fits and is written, starts the job. `H` is the initial value of the variant (R192 to
R194), and `N` is R131's number. MSG, LEN, DIG, the host's reads and the rest of the datapath are unchanged. -/
def Obligations.HashCommandStartsJob : Prop :=
  ∀ (s : State) (i : Instr) (alg : Alg),
    (i, alg) ∈ [(.hashSha256, .sha256), (.wrCmd 0x00000001#32, .sha256), (.hashSha384, .sha384),
      (.wrCmd 0x00000011#32, .sha384), (.hashSha512, .sha512), (.wrCmd 0x00000021#32, .sha512)] →
    s.fault = none → accepts s.kind alg = true → s.status.busy = false → s.len.toNat ≤ s.msgCap.val →
    (∀ j, j < s.len.toNat → s.msg.read j ≠ none) →
    ∃ t : State, exec i s = .next t ∧
      t.jalg = alg ∧ t.status = { busy := true, done := false, lalg := alg } ∧ t.seq = .run ∧ t.blockIdx = some 0 ∧
      t.blockCount = some (if alg = .sha256 then s.len.toNat / 64 + (if s.len.toNat % 64 ≥ 56 then 2 else 1)
        else s.len.toNat / 128 + (if s.len.toNat % 128 ≥ 112 then 2 else 1)) ∧
      (∀ d, s.engine = .w32 d → t.engine = .w32 { d with hash := some iv256 }) ∧
      (∀ d, s.engine = .w64 d → t.engine = .w64 { d with hash := some (if alg = .sha384 then iv384 else iv512) }) ∧
      t.msgCap = s.msgCap ∧ t.len = s.len ∧ t.msg = s.msg ∧ t.dig = s.dig ∧ t.fault = none ∧ t.input = s.input ∧
      t.reads = s.reads

/-- R206 with R400: RESET gives every piece of the core's state its reset value, in the midst of a job too, and is not
enabled in a faulted state. -/
def Obligations.ResetRestoresResetState : Prop :=
  (∀ (s : State) (m : FaultMark), s.fault = some m → exec .reset s = .fault (.modelFault m)) ∧
  ∀ s : State, s.fault = none →
    ∃ t : State, exec .reset s = .next t ∧
      t.status = { busy := false, done := false, lalg := .sha256 } ∧ t.status.word = 0x00000000#32 ∧
      t.len = 0x00000000#32 ∧ t.jalg = .sha256 ∧ (∀ j, t.msg.read j = none) ∧ (∀ j, t.dig.read j = none) ∧
      (s.kind = .sha256Core → t.engine = .w32 { hash := none, work := none, sched := none, block := none }) ∧
      (s.kind = .sha512Core → t.engine = .w64 { hash := none, work := none, sched := none, block := none }) ∧
      t.seq = .idle ∧ t.blockIdx = none ∧ t.blockCount = none ∧ t.round = none ∧ t.fault = none ∧
      t.kind = s.kind ∧ t.msgCap = s.msgCap

/-- R400 of the machine right after reset. (That it is a `SHA256_core` of the largest capacity is the model's choice,
log entry 3, and no clause here.) -/
def Obligations.ResetStateIsIdle : Prop :=
  State.reset.status.word = 0x00000000#32 ∧ State.reset.len = 0x00000000#32 ∧ State.reset.seq = .idle ∧
    State.reset.jalg = .sha256 ∧ State.reset.fault = none ∧ (∀ j, State.reset.msg.read j = none) ∧
    (∀ j, State.reset.dig.read j = none) ∧ State.reset.blockIdx = none ∧ State.reset.blockCount = none ∧
    State.reset.round = none ∧ State.reset.engine = .unset State.reset.kind

/-- What no read, and no write of LEN or MSG, changes: STATUS, DIG and the job. So a digest stays readable until the
next command or RESET (R205's first corner case). -/
def Obligations.OnlyCommandsAndResetTouchTheJob : Prop :=
  ∀ (s t : State) (i : Instr),
    ((∃ data, i = .wrLen data) ∨ (∃ idx data, i = .wrMsg idx data) ∨ i = .rdStatus ∨ i = .rdLen ∨ (∃ idx, i = .rdMsg idx) ∨
      ∃ idx, i = .rdDig idx) →
    exec i s = .next t →
    t.status = s.status ∧ t.dig = s.dig ∧ t.engine = s.engine ∧ t.seq = s.seq ∧ t.jalg = s.jalg ∧
      t.blockIdx = s.blockIdx ∧ t.blockCount = s.blockCount ∧ t.round = s.round ∧ t.msgCap = s.msgCap ∧
      ((i = .rdStatus ∨ i = .rdLen ∨ (∃ idx, i = .rdMsg idx) ∨ ∃ idx, i = .rdDig idx) →
        t.len = s.len ∧ t.msg = s.msg)

/-- R179: "No host operation cancels a job. Only RESET ... abandons one, and it abandons the whole instance state". An
operation that faults leaves the job's state too, though no step follows it (R300). -/
def Obligations.NoOperationCancelsAJob : Prop :=
  ∀ (s t : State) (i : Instr), s.status.busy = true → exec i s = .next t →
    (i ≠ .reset →
      t.status = s.status ∧ t.seq = s.seq ∧ t.engine = s.engine ∧ t.blockIdx = s.blockIdx ∧ t.blockCount = s.blockCount ∧
        t.round = s.round ∧ t.jalg = s.jalg ∧ t.len = s.len ∧ t.msg = s.msg ∧ t.dig = s.dig) ∧
    (i = .reset →
      t.status = { busy := false, done := false, lalg := .sha256 } ∧ t.seq = .idle ∧ t.jalg = .sha256 ∧
        t.engine = .unset s.kind ∧ t.blockIdx = none ∧ t.blockCount = none ∧
        t.round = none ∧ t.len = 0x00000000#32 ∧ ∀ j, t.msg.read j = none ∧ t.dig.read j = none)

/-! ## Word operations (spec/40_word_ops.md) -/

/-- R100: `rotr_w` by its formula, bit by bit, and its corner cases. -/
def Obligations.RotrRotatesRight : Prop :=
  ∀ (w : Nat) (x : BitVec w) (n : Nat), 0 < n → n < w →
    (rotr x n).toNat = ((x.toNat >>> n) ||| (x.toNat <<< (w - n))) % 2 ^ w ∧
    (∀ i, i < w → (rotr x n).getLsbD i = x.getLsbD ((i + n) % w)) ∧
    ((Finset.range w).filter fun i => (rotr x n).getLsbD i = true).card =
      ((Finset.range w).filter fun i => x.getLsbD i = true).card ∧
    rotr (0#w) n = 0#w ∧ rotr (BitVec.allOnes w) n = BitVec.allOnes w

/-- R101: `shr_w(x, n) = floor(x / 2^n)`, and its corner case. -/
def Obligations.ShrIsFloorDivision : Prop :=
  ∀ (w : Nat) (x : BitVec w) (n : Nat), 0 < n → n < w →
    (shr x n).toNat = x.toNat / 2 ^ n ∧ (shr (BitVec.allOnes w) n).toNat = 2 ^ (w - n) - 1

/-- R104 and R105: the truth tables of Ch and Maj, bit by bit. -/
def Obligations.ChAndMajFollowTruthTables : Prop :=
  ∀ (w : Nat) (x y z : BitVec w) (i : Nat), i < w →
    (choose x y z).getLsbD i = (if x.getLsbD i then y.getLsbD i else z.getLsbD i) ∧
    (majority x y z).getLsbD i =
      decide (2 ≤ (x.getLsbD i).toNat + (y.getLsbD i).toNat + (z.getLsbD i).toNat)

/-- R106 to R109: the four mixing functions at 32 and at 64 bits, with their amounts, by the library's rotation. The
form of lower_sigma_1 is R107's reading of "analogous", which the spec marks as general knowledge (G9; log entry 12,
PRESUMED). -/
def Obligations.SigmasUseSpecAmounts : Prop :=
  (∀ x : BitVec 32,
    lowerSigma0 config32 x = x.rotateRight 7 ^^^ x.rotateRight 18 ^^^ x >>> 3 ∧
    lowerSigma1 config32 x = x.rotateRight 17 ^^^ x.rotateRight 19 ^^^ x >>> 10 ∧
    upperSigma0 config32 x = x.rotateRight 2 ^^^ x.rotateRight 13 ^^^ x.rotateRight 22 ∧
    upperSigma1 config32 x = x.rotateRight 6 ^^^ x.rotateRight 11 ^^^ x.rotateRight 25) ∧
  (∀ x : BitVec 64,
    lowerSigma0 config64 x = x.rotateRight 1 ^^^ x.rotateRight 8 ^^^ x >>> 7 ∧
    lowerSigma1 config64 x = x.rotateRight 19 ^^^ x.rotateRight 61 ^^^ x >>> 6 ∧
    upperSigma0 config64 x = x.rotateRight 28 ^^^ x.rotateRight 34 ^^^ x.rotateRight 39 ∧
    upperSigma1 config64 x = x.rotateRight 14 ^^^ x.rotateRight 18 ^^^ x.rotateRight 41)

/-- The tables of R190 to R194 entry by entry, against R195's derivation (which the spec marks as general knowledge): the
entry `t` is the integer cube or square root, modulo the word, of the `t`-th prime (from 0) scaled; IV384 takes the
primes from the eighth on. -/
def Obligations.ConstantsAreRootFractions : Prop :=
  (∀ t, ∀ ht : t < 64, ∃ p r : Nat, p.Prime ∧ Nat.count Nat.Prime p = t ∧
    r ^ 3 ≤ p * 2 ^ 96 ∧ p * 2 ^ 96 < (r + 1) ^ 3 ∧ tableK32[t].toNat = r % 2 ^ 32) ∧
  (∀ t, ∀ ht : t < 80, ∃ p r : Nat, p.Prime ∧ Nat.count Nat.Prime p = t ∧
    r ^ 3 ≤ p * 2 ^ 192 ∧ p * 2 ^ 192 < (r + 1) ^ 3 ∧ tableK64[t].toNat = r % 2 ^ 64) ∧
  (∀ k, ∀ hk : k < 8, ∃ p r : Nat, p.Prime ∧ Nat.count Nat.Prime p = k ∧
    r ^ 2 ≤ p * 2 ^ 64 ∧ p * 2 ^ 64 < (r + 1) ^ 2 ∧ iv256[k].toNat = r % 2 ^ 32) ∧
  (∀ k, ∀ hk : k < 8, ∃ p r : Nat, p.Prime ∧ Nat.count Nat.Prime p = k + 8 ∧
    r ^ 2 ≤ p * 2 ^ 128 ∧ p * 2 ^ 128 < (r + 1) ^ 2 ∧ iv384[k].toNat = r % 2 ^ 64) ∧
  (∀ k, ∀ hk : k < 8, ∃ p r : Nat, p.Prime ∧ Nat.count Nat.Prime p = k ∧
    r ^ 2 ≤ p * 2 ^ 128 ∧ p * 2 ^ 128 < (r + 1) ^ 2 ∧ iv512[k].toNat = r % 2 ^ 64)

/-! ## Padder, BlockParser, schedulers, rounds -/

/-- R135: the boundary property of the block count, at both widths. -/
def Obligations.BlockCountBoundary : Prop :=
  ∀ q r : Nat,
    (r < 56 → blocksFor 32 (64 * q + r) = q + 1) ∧ (56 ≤ r → r < 64 → blocksFor 32 (64 * q + r) = q + 2) ∧
    (r < 112 → blocksFor 64 (128 * q + r) = q + 1) ∧ (112 ≤ r → r < 128 → blocksFor 64 (128 * q + r) = q + 2)

/-- R132: the padded message has `N·B` bytes, and byte `j` is the message's, the marker, zero, or the length field's.
At the widths 32 and 64, for every message, as the length field's bytes are taken of `8n` mod `2^(8·Lb)`. -/
def Obligations.PaddedBytesFollowRule : Prop :=
  ∀ (w : Nat) (m : List Byte) (n B Lb N j : Nat), (w = 32 ∨ w = 64) → n = m.length → B = 2 * w → Lb = w / 4 →
    N = n / B + (if n % B ≥ B - Lb then 2 else 1) →
    (padded w m).length = N * B ∧
    (j < n → (padded w m)[j]? = m[j]?) ∧
    (j = n → (padded w m)[j]? = some 0x80#8) ∧
    (n < j → j < N * B - Lb → (padded w m)[j]? = some 0x00#8) ∧
    (N * B - Lb ≤ j → j < N * B →
      (padded w m)[j]? = some (BitVec.ofNat 8 (8 * n / 2 ^ (8 * (Lb - 1 - (j - (N * B - Lb)))))))

/-- R134: the invariants of the padded message, for every message that fits a message buffer. -/
def Obligations.PaddingInvariants : Prop :=
  ∀ (w : Nat) (m : List Byte) (N B Lb : Nat), (w = 32 ∨ w = 64) → m.length ≤ 2 ^ 28 → N = blocksFor w m.length →
    B = 2 * w → Lb = w / 4 →
    (padded w m).length = N * B ∧ (padded w m).length % B = 0 ∧ (padded w m).take m.length = m ∧
    fromBE ((padded w m).drop (N * B - Lb)) = 8 * m.length ∧
    m.length + 1 + Lb ≤ N * B ∧ N * B - Lb - m.length - 1 < B ∧ N * B ≤ m.length + (B + Lb)

/-- R12: `BE_n(v)` byte by byte, `fromBE` as its sum, and that it is the inverse of `BE_n`. -/
def Obligations.FromBeInvertsBe : Prop :=
  (∀ n v : Nat, v < 2 ^ (8 * n) →
    (beBytes n v).length = n ∧ fromBE (beBytes n v) = v ∧
    ∀ k, k < n → (beBytes n v)[k]? = some (BitVec.ofNat 8 (v / 2 ^ (8 * (n - 1 - k)) % 256))) ∧
  ∀ X : List Byte, fromBE X = ∑ k ∈ Finset.range X.length, (X.getD k 0).toNat * 2 ^ (8 * (X.length - 1 - k))

/-- R140: the word `j` of block `i` is the big-endian sum of its bytes, and the last block's words 14 and 15 hold the
bit length, word 14 zero for every message that fits a message buffer (R136). -/
def Obligations.BlockWordsAreBigEndian : Prop :=
  ∀ (w wb : Nat) (m : List Byte) (i j : Nat) (hj : j < 16), (w = 32 ∨ w = 64) → wb = w / 8 →
    (i < blocksFor w m.length →
      ((parseBlock w (padded w m) i)[j]).toNat =
        ∑ k ∈ Finset.range wb,
          (((padded w m).getD (i * (16 * wb) + j * wb + k) 0).toNat) * 2 ^ (8 * (wb - 1 - k))) ∧
    (8 * m.length < 2 ^ (2 * w) → i + 1 = blocksFor w m.length →
      (j = 14 → ((parseBlock w (padded w m) i)[j]).toNat = 8 * m.length / 2 ^ w) ∧
      (j = 15 → ((parseBlock w (padded w m) i)[j]).toNat = 8 * m.length % 2 ^ w)) ∧
    (m.length ≤ 2 ^ 28 → i + 1 = blocksFor w m.length →
      (j = 14 → ((parseBlock w (padded w m) i)[j]).toNat = 0) ∧
      (j = 15 → ((parseBlock w (padded w m) i)[j]).toNat = 8 * m.length))

/-- R150: `message_scheduler_32bit`, with its corner cases: the schedule of an all-zero block, and words of that of an
all-ones block. -/
def Obligations.Scheduler32FollowsRecurrence : Prop :=
  (∀ (mb : Vector (BitVec 32) 16) (t : Nat) (ht : t < 64),
    (∀ h : t < 16, (messageScheduler32 mb)[t] = mb[t]) ∧
    (16 ≤ t →
      (messageScheduler32 mb)[t] =
        lowerSigma1 config32 (messageScheduler32 mb)[t - 2] + (messageScheduler32 mb)[t - 7] +
          lowerSigma0 config32 (messageScheduler32 mb)[t - 15] + (messageScheduler32 mb)[t - 16])) ∧
  (∀ t, ∀ h : t < 64, (messageScheduler32 (Vector.replicate 16 0#32))[t] = 0#32) ∧
  (messageScheduler32 (Vector.replicate 16 0xFFFFFFFF#32))[16] = 0x203FFFFC#32 ∧
  (messageScheduler32 (Vector.replicate 16 0xFFFFFFFF#32))[17] = 0x203FFFFC#32 ∧
  (messageScheduler32 (Vector.replicate 16 0xFFFFFFFF#32))[63] = 0x4BCEAF09#32

/-- R151: `message_scheduler_64bit`, with its corner cases: the schedule of an all-zero block, and words of that of an
all-ones block. -/
def Obligations.Scheduler64FollowsRecurrence : Prop :=
  (∀ (mb : Vector (BitVec 64) 16) (t : Nat) (ht : t < 80),
    (∀ h : t < 16, (messageScheduler64 mb)[t] = mb[t]) ∧
    (16 ≤ t →
      (messageScheduler64 mb)[t] =
        lowerSigma1 config64 (messageScheduler64 mb)[t - 2] + (messageScheduler64 mb)[t - 7] +
          lowerSigma0 config64 (messageScheduler64 mb)[t - 15] + (messageScheduler64 mb)[t - 16])) ∧
  (∀ t, ∀ h : t < 80, (messageScheduler64 (Vector.replicate 16 0#64))[t] = 0#64) ∧
  (messageScheduler64 (Vector.replicate 16 0xFFFFFFFFFFFFFFFF#64))[16] = 0x05FFFFFFFFFFFFFC#64 ∧
  (messageScheduler64 (Vector.replicate 16 0xFFFFFFFFFFFFFFFF#64))[79] = 0x838168CE14E43C5A#64

/-- R160 and R161: one round at each width, with the sigmas' amounts written out. -/
def Obligations.RoundsFollowRule : Prop :=
  (∀ (s : Work 32) (kt wt : BitVec 32), ∃ T1 T2 : BitVec 32,
    T1 = s.h + (s.e.rotateRight 6 ^^^ s.e.rotateRight 11 ^^^ s.e.rotateRight 25) +
      ((s.e &&& s.f) ^^^ (~~~s.e &&& s.g)) + kt + wt ∧
    T2 = (s.a.rotateRight 2 ^^^ s.a.rotateRight 13 ^^^ s.a.rotateRight 22) +
      ((s.a &&& s.b) ^^^ (s.a &&& s.c) ^^^ (s.b &&& s.c)) ∧
    compressionRound32 s kt wt = ⟨T1 + T2, s.a, s.b, s.c, s.d + T1, s.e, s.f, s.g⟩) ∧
  (∀ (s : Work 64) (kt wt : BitVec 64), ∃ T1 T2 : BitVec 64,
    T1 = s.h + (s.e.rotateRight 14 ^^^ s.e.rotateRight 18 ^^^ s.e.rotateRight 41) +
      ((s.e &&& s.f) ^^^ (~~~s.e &&& s.g)) + kt + wt ∧
    T2 = (s.a.rotateRight 28 ^^^ s.a.rotateRight 34 ^^^ s.a.rotateRight 39) +
      ((s.a &&& s.b) ^^^ (s.a &&& s.c) ^^^ (s.b &&& s.c)) ∧
    compressionRound64 s kt wt = ⟨T1 + T2, s.a, s.b, s.c, s.d + T1, s.e, s.f, s.g⟩)

/-! ## The job (spec/45_chaining_and_digest.md) -/

/-- One micro-step on a block that is not loaded is MD_LOAD: `Mb <- Block(i)` and `W <- SCHED_w(Mb)` (R171), and the
working variables from `H` (R172). The micro-step and its bookkeeping are the model's (log entry 8). That `a` to `h`
correspond to `H[0]` to `H[7]` is R172's, which marks it as general knowledge (G6; log entry 12, PRESUMED). -/
def Obligations.MicroStepLoadsBlock : Prop :=
  ∀ (s : State) (m : List Byte) (i n t : Nat),
    s.seq = .run → s.loaded = false → s.message = some m → s.blockIdx = some i → s.blockCount = some n → i < n →
    s.round = some t →
    (∀ (d : Datapath 32 48) (H : Vector (BitVec 32) 8), s.engine = .w32 d → d.hash = some H →
      s.coreMicro = .next { s with
        engine := .w32
          { hash := some H
            work := some ⟨H[0], H[1], H[2], H[3], H[4], H[5], H[6], H[7]⟩
            sched := some (messageScheduler32 (parseBlock 32 (padded 32 m) i))
            block := some (parseBlock 32 (padded 32 m) i) }
        round := some 0
        loaded := true }) ∧
    (∀ (d : Datapath 64 64) (H : Vector (BitVec 64) 8), s.engine = .w64 d → d.hash = some H →
      s.coreMicro = .next { s with
        engine := .w64
          { hash := some H
            work := some ⟨H[0], H[1], H[2], H[3], H[4], H[5], H[6], H[7]⟩
            sched := some (messageScheduler64 (parseBlock 64 (padded 64 m) i))
            block := some (parseBlock 64 (padded 64 m) i) }
        round := some 0
        loaded := true })

/-- One micro-step with rounds to go is round `t`, with `K[t]` and `W[t]` (R162); nothing but the working variables and
the round index changes. The micro-step is the model's (log entry 8). -/
def Obligations.MicroStepRunsRound : Prop :=
  ∀ (s : State) (i n t : Nat),
    s.seq = .run → s.loaded = true → s.blockIdx = some i → s.blockCount = some n → i < n → s.round = some t →
    (∀ (d : Datapath 32 48) (x : Work 32) (W : Vector (BitVec 32) 64) (ht : t < 64), s.engine = .w32 d →
      d.work = some x → d.sched = some W →
      s.coreMicro = .next { s with
        engine := .w32 { d with work := some (compressionRound32 x tableK32[t] W[t]) }
        round := some (t + 1) }) ∧
    (∀ (d : Datapath 64 64) (x : Work 64) (W : Vector (BitVec 64) 80) (ht : t < 80), s.engine = .w64 d →
      d.work = some x → d.sched = some W →
      s.coreMicro = .next { s with
        engine := .w64 { d with work := some (compressionRound64 x tableK64[t] W[t]) }
        round := some (t + 1) })

/-- One micro-step after the last round is the chaining step of R172: each working variable is added to the `H` from
before the block's rounds (R406), and `i <- i + 1`. The micro-step is the model's (log entry 8). That `a` to `h`
correspond to `H[0]` to `H[7]` is R172's, which marks it as general knowledge (G6; log entry 12, PRESUMED). -/
def Obligations.MicroStepChains : Prop :=
  ∀ (s : State) (i n : Nat),
    s.seq = .run → s.loaded = true → s.blockIdx = some i → s.blockCount = some n → i < n →
    (∀ (d : Datapath 32 48) (H : Vector (BitVec 32) 8) (x : Work 32), s.engine = .w32 d → d.hash = some H →
      d.work = some x → s.round = some 64 →
      s.coreMicro = .next { s with
        engine := .w32
          { d with
            hash := some #v[H[0] + x.a, H[1] + x.b, H[2] + x.c, H[3] + x.d, H[4] + x.e, H[5] + x.f, H[6] + x.g,
              H[7] + x.h] }
        blockIdx := some (i + 1)
        loaded := false
        seq := if i + 1 < n then .run else .out }) ∧
    (∀ (d : Datapath 64 64) (H : Vector (BitVec 64) 8) (x : Work 64), s.engine = .w64 d → d.hash = some H →
      d.work = some x → s.round = some 80 →
      s.coreMicro = .next { s with
        engine := .w64
          { d with
            hash := some #v[H[0] + x.a, H[1] + x.b, H[2] + x.c, H[3] + x.d, H[4] + x.e, H[5] + x.f, H[6] + x.g,
              H[7] + x.h] }
        blockIdx := some (i + 1)
        loaded := false
        seq := if i + 1 < n then .run else .out })

/-- R174: DIGEST writes the leading `DL` bytes of the big-endian `H[0] ‖ ... ‖ H[7]` to DIG, sets DONE, clears BUSY and
ends the job; every DIG cell from `DL` on, and everything else, is unchanged. That DIGEST is a micro-step of its own, at
`seq = OUT`, is the split R177 leaves to the modeller (log entry 8, DESIGN CHOICE); that `H[0]` comes first is R174's,
which marks it as general knowledge (G7; log entry 12, PRESUMED). -/
def Obligations.DigestSerialisesHash : Prop :=
  ∀ s : State, s.seq = .out →
    ∃ dl : Nat, dl = (match s.jalg with | .sha256 => 32 | .sha384 => 48 | .sha512 => 64) ∧
    (∀ (d : Datapath 32 48) (H : Vector (BitVec 32) 8), s.engine = .w32 d → d.hash = some H → s.jalg = .sha256 →
      ∃ dig' : Memory,
        s.coreMicro = .next { s with
          dig := dig', seq := .idle, status := { busy := false, done := true, lalg := s.status.lalg } } ∧
        (∀ k r, ∀ hk : k < 8, r < 4 → 4 * k + r < dl →
          dig'.read (4 * k + r) = some (BitVec.ofNat 8 (H[k].toNat / 2 ^ (8 * (3 - r))))) ∧
        (∀ j, dl ≤ j → dig'.read j = s.dig.read j)) ∧
    (∀ (d : Datapath 64 64) (H : Vector (BitVec 64) 8), s.engine = .w64 d → d.hash = some H →
      ∃ dig' : Memory,
        s.coreMicro = .next { s with
          dig := dig', seq := .idle, status := { busy := false, done := true, lalg := s.status.lalg } } ∧
        (∀ k r, ∀ hk : k < 8, r < 8 → 8 * k + r < dl →
          dig'.read (8 * k + r) = some (BitVec.ofNat 8 (H[k].toNat / 2 ^ (8 * (7 - r))))) ∧
        (∀ j, dl ≤ j → dig'.read j = s.dig.read j))

/-- R176's first property: the digest's length is the variant's, whatever the message's. -/
def Obligations.DigestLengthIsFixed : Prop :=
  ∀ m : List Byte, (sha .sha256 m).length = 32 ∧ (sha .sha384 m).length = 48 ∧ (sha .sha512 m).length = 64

/-- The core never writes MSG or LEN (R72 (d)), nor the latched algorithm, the parameters, the mark or the host's
reads, in a micro-step or in CoreRun. -/
def Obligations.CoreNeverWritesInputs : Prop :=
  ∀ s t : State, (s.coreMicro = .next t ∨ s.coreRun = .next t) →
    t.msg = s.msg ∧ t.len = s.len ∧ t.jalg = s.jalg ∧ t.status.lalg = s.status.lalg ∧ t.kind = s.kind ∧
      t.msgCap = s.msgCap ∧ t.fault = s.fault ∧ t.reads = s.reads ∧ t.blockCount = s.blockCount

/-! ## Invariants and whole-machine rules -/

/-- The invariant holds of the reset state of every core, whatever the host's turns. -/
def Obligations.InvariantAtReset : Prop :=
  State.reset.Inv ∧ ∀ (k : CoreKind) (cap : MsgCap) (input : List Event) (reads : List HWord),
    (State.resetOf k cap input reads).Inv

/-- R25's and R31's invariants of STATUS and JALG are kept by every step. -/
def Obligations.StepKeepsStatusInvariants : Prop :=
  ∀ s t : State, s.StatusOk → step s = .next t → t.StatusOk

/-- Every step keeps the invariant: STATUS and the phase agree, the buffers are canonical and within their cells, a
finished digest is there, and the state of a running job is the one that R171 to R176 give for its message. -/
def Obligations.StepKeepsInvariant : Prop :=
  ∀ s t : State, s.Inv → step s = .next t → t.Inv

/-- R20: CORE_KIND and MSG_CAP are "fixed for the life of an instance, and never written". -/
def Obligations.ParametersNeverChange : Prop :=
  ∀ s t : State, step s = .next t → t.kind = s.kind ∧ t.msgCap = s.msgCap

/-- R177: CoreRun, from every state of the invariant in which a job runs, raises no fault and ends with
`DIG[0..DL) = SHA(JALG, MSG[0..LEN))`, `seq = IDLE`, `BUSY = 0` and `DONE = 1`, and with `i = N`; DIG from `DL` on, MSG
and LEN are unchanged. -/
def Obligations.CoreRunComputesDigest : Prop :=
  ∀ (s : State) (m : List Byte), s.Inv → s.seq = .run → s.message = some m →
    ∃ t : State, s.coreRun = .next t ∧ t.seq = .idle ∧
      t.status = { busy := false, done := true, lalg := s.status.lalg } ∧
      (∀ j, j < digestLen s.jalg → t.dig.read j = (sha s.jalg m)[j]?) ∧
      (∀ j, digestLen s.jalg ≤ j → t.dig.read j = s.dig.read j) ∧
      t.blockIdx = s.blockCount ∧ t.msg = s.msg ∧ t.len = s.len ∧ t.jalg = s.jalg ∧ t.kind = s.kind ∧
      t.msgCap = s.msgCap ∧ t.fault = s.fault ∧ t.input = s.input ∧ t.reads = s.reads

/-- R177's split: from every state of the invariant in which a job is under way, the micro-steps come to the very state
that CoreRun answers, and until then BUSY is 1. -/
def Obligations.MicroStepsReachCoreRun : Prop :=
  ∀ s : State, s.Inv → s.seq ≠ .idle →
    ∃ k : Nat, 0 < k ∧ s.coreMicros k = s.coreRun ∧
      ∀ j, j < k → ∃ u : State, s.coreMicros j = .next u ∧ u.status.busy = true

/-- A job that has just been accepted ends after exactly `N·(R + 2) + 1` micro-steps: for each of its `N` blocks one
MD_LOAD, `R` rounds and one chaining, and then DIGEST. The rules R178 and R408 speak of the `N·R` rounds; that MD_LOAD,
the chaining and DIGEST are one micro-step each is the split R177 leaves to the modeller (log entry 8, DESIGN
CHOICE). -/
def Obligations.JobTakesExactlyItsRounds : Prop :=
  ∀ (s : State) (n R : Nat), s.Inv → s.seq = .run → s.blockIdx = some 0 → s.loaded = false → s.blockCount = some n →
    ((s.kind = .sha256Core ∧ R = 64) ∨ (s.kind = .sha512Core ∧ R = 80)) →
    s.coreMicros (n * (R + 2) + 1) = s.coreRun ∧
      ∀ j, j ≤ n * (R + 2) → ∃ u : State, s.coreMicros j = .next u ∧ u.status.busy = true

/-- R320: "The datapath state (H, W, working variables) cannot be observed by the host". Two states that differ in the
datapath's contents and the place in the job only give every operation of the host the same result and the same fault,
and stay alike. -/
def Obligations.HostCannotObserveDatapath : Prop :=
  ∀ (i : Instr) (s s' : State), s.SameToHost s' → SameResultToHost (exec i s) (exec i s')

/-- The whole path, for every written message on a core that accepts `alg`: a HASH command and then CoreRun leave the
digest `SHA(alg, MSG[0..LEN))` in DIG, and DONE set (R200, R177). -/
def Obligations.HashThenCoreRunGivesDigest : Prop :=
  ∀ (s : State) (i : Instr) (alg : Alg) (m : List Byte) (rest : List Event),
    (i, alg) ∈ [(.hashSha256, .sha256), (.wrCmd 0x00000001#32, .sha256), (.hashSha384, .sha384),
      (.wrCmd 0x00000011#32, .sha384), (.hashSha512, .sha512), (.wrCmd 0x00000021#32, .sha512)] →
    s.Inv → s.fault = none → s.status.busy = false → accepts s.kind alg = true → s.message = some m →
    m.length ≤ s.msgCap.val → s.input = .host (encode i) :: .coreRun :: rest →
    ∃ t : State, SafeRun 2 s t ∧ t.input = rest ∧ t.status = { busy := false, done := true, lalg := alg } ∧
      t.msg = s.msg ∧ t.len = s.len ∧ ∀ j, j < digestLen alg → t.dig.read j = (sha alg m)[j]?

/-- R89's script of one digest, for every message that fits, from every state of the invariant in which no job runs:
`load`, a HASH command, CoreRun, one poll of `wait`, and `rddig DL`. The host reads `DONE` with the algorithm, and then
the bytes of `SHA(alg, message)`, one after another (the host's reads stand last first); every cell of MSG beyond the
message is as before. -/
def Obligations.ScriptReadsDigest : Prop :=
  ∀ (s : State) (bytes : List Byte) (line : ScriptLine) (alg : Alg) (rest : List Event),
    (line, alg) ∈ [(.hashSha256, .sha256), (.hashSha384, .sha384), (.hashSha512, .sha512)] →
    s.Inv → s.fault = none → s.status.busy = false → accepts s.kind alg = true → bytes.length ≤ s.msgCap.val →
    s.input = ((ScriptLine.load bytes).expand 0 ++ line.expand 0).map .host ++
      .coreRun :: ((ScriptLine.wait.expand 1 ++ (ScriptLine.rddig (digestLen alg)).expand 0).map .host ++ rest) →
    ∃ (k : Nat) (t : State), SafeRun k s t ∧ t.input = rest ∧ t.message = some bytes ∧
      (∀ j, bytes.length ≤ j → t.msg.read j = s.msg.read j) ∧
      ∃ v : HWord, v.toNat = 2 + 16 * (match alg with | .sha256 => 0 | .sha384 => 1 | .sha512 => 2) ∧
        waitReads [v] = true ∧ t.reads = ((sha alg bytes).map byteValue).reverse ++ v :: s.reads
end

