-- ==== Sys2Proof/Laws/State.lean ====
section
/-! SUPPORT. One lemma per field per update of State, true by rfl: no later proof unfolds a record update. Then the
fields of Status, and the state after reset. -/

namespace Sys2Proof.Machine

variable (s : State)

/-! ### withFault -/

@[simp] theorem State.withFault_msgCap (m : FaultMark) : (s.withFault m).msgCap = s.msgCap := rfl
@[simp] theorem State.withFault_engine (m : FaultMark) : (s.withFault m).engine = s.engine := rfl
@[simp] theorem State.withFault_status (m : FaultMark) : (s.withFault m).status = s.status := rfl
@[simp] theorem State.withFault_len (m : FaultMark) : (s.withFault m).len = s.len := rfl
@[simp] theorem State.withFault_msg (m : FaultMark) : (s.withFault m).msg = s.msg := rfl
@[simp] theorem State.withFault_dig (m : FaultMark) : (s.withFault m).dig = s.dig := rfl
@[simp] theorem State.withFault_seq (m : FaultMark) : (s.withFault m).seq = s.seq := rfl
@[simp] theorem State.withFault_blockIdx (m : FaultMark) : (s.withFault m).blockIdx = s.blockIdx := rfl
@[simp] theorem State.withFault_blockCount (m : FaultMark) : (s.withFault m).blockCount = s.blockCount := rfl
@[simp] theorem State.withFault_round (m : FaultMark) : (s.withFault m).round = s.round := rfl
@[simp] theorem State.withFault_jalg (m : FaultMark) : (s.withFault m).jalg = s.jalg := rfl
@[simp] theorem State.withFault_loaded (m : FaultMark) : (s.withFault m).loaded = s.loaded := rfl
@[simp] theorem State.withFault_fault (m : FaultMark) : (s.withFault m).fault = some m := rfl
@[simp] theorem State.withFault_input (m : FaultMark) : (s.withFault m).input = s.input := rfl
@[simp] theorem State.withFault_reads (m : FaultMark) : (s.withFault m).reads = s.reads := rfl
@[simp] theorem State.withFault_kind (m : FaultMark) : (s.withFault m).kind = s.kind := rfl

/-! ### withRead -/

@[simp] theorem State.withRead_msgCap (v : HWord) : (s.withRead v).msgCap = s.msgCap := rfl
@[simp] theorem State.withRead_engine (v : HWord) : (s.withRead v).engine = s.engine := rfl
@[simp] theorem State.withRead_status (v : HWord) : (s.withRead v).status = s.status := rfl
@[simp] theorem State.withRead_len (v : HWord) : (s.withRead v).len = s.len := rfl
@[simp] theorem State.withRead_msg (v : HWord) : (s.withRead v).msg = s.msg := rfl
@[simp] theorem State.withRead_dig (v : HWord) : (s.withRead v).dig = s.dig := rfl
@[simp] theorem State.withRead_seq (v : HWord) : (s.withRead v).seq = s.seq := rfl
@[simp] theorem State.withRead_blockIdx (v : HWord) : (s.withRead v).blockIdx = s.blockIdx := rfl
@[simp] theorem State.withRead_blockCount (v : HWord) : (s.withRead v).blockCount = s.blockCount := rfl
@[simp] theorem State.withRead_round (v : HWord) : (s.withRead v).round = s.round := rfl
@[simp] theorem State.withRead_jalg (v : HWord) : (s.withRead v).jalg = s.jalg := rfl
@[simp] theorem State.withRead_loaded (v : HWord) : (s.withRead v).loaded = s.loaded := rfl
@[simp] theorem State.withRead_fault (v : HWord) : (s.withRead v).fault = s.fault := rfl
@[simp] theorem State.withRead_input (v : HWord) : (s.withRead v).input = s.input := rfl
@[simp] theorem State.withRead_reads (v : HWord) : (s.withRead v).reads = v :: s.reads := rfl
@[simp] theorem State.withRead_kind (v : HWord) : (s.withRead v).kind = s.kind := rfl

/-! ### withLen -/

@[simp] theorem State.withLen_msgCap (v : HWord) : (s.withLen v).msgCap = s.msgCap := rfl
@[simp] theorem State.withLen_engine (v : HWord) : (s.withLen v).engine = s.engine := rfl
@[simp] theorem State.withLen_status (v : HWord) : (s.withLen v).status = s.status := rfl
@[simp] theorem State.withLen_len (v : HWord) : (s.withLen v).len = v := rfl
@[simp] theorem State.withLen_msg (v : HWord) : (s.withLen v).msg = s.msg := rfl
@[simp] theorem State.withLen_dig (v : HWord) : (s.withLen v).dig = s.dig := rfl
@[simp] theorem State.withLen_seq (v : HWord) : (s.withLen v).seq = s.seq := rfl
@[simp] theorem State.withLen_blockIdx (v : HWord) : (s.withLen v).blockIdx = s.blockIdx := rfl
@[simp] theorem State.withLen_blockCount (v : HWord) : (s.withLen v).blockCount = s.blockCount := rfl
@[simp] theorem State.withLen_round (v : HWord) : (s.withLen v).round = s.round := rfl
@[simp] theorem State.withLen_jalg (v : HWord) : (s.withLen v).jalg = s.jalg := rfl
@[simp] theorem State.withLen_loaded (v : HWord) : (s.withLen v).loaded = s.loaded := rfl
@[simp] theorem State.withLen_fault (v : HWord) : (s.withLen v).fault = s.fault := rfl
@[simp] theorem State.withLen_input (v : HWord) : (s.withLen v).input = s.input := rfl
@[simp] theorem State.withLen_reads (v : HWord) : (s.withLen v).reads = s.reads := rfl
@[simp] theorem State.withLen_kind (v : HWord) : (s.withLen v).kind = s.kind := rfl

/-! ### withMsgByte -/

@[simp] theorem State.withMsgByte_msgCap (a : Nat) (v : Byte) : (s.withMsgByte a v).msgCap = s.msgCap := rfl
@[simp] theorem State.withMsgByte_engine (a : Nat) (v : Byte) : (s.withMsgByte a v).engine = s.engine := rfl
@[simp] theorem State.withMsgByte_status (a : Nat) (v : Byte) : (s.withMsgByte a v).status = s.status := rfl
@[simp] theorem State.withMsgByte_len (a : Nat) (v : Byte) : (s.withMsgByte a v).len = s.len := rfl
@[simp] theorem State.withMsgByte_msg (a : Nat) (v : Byte) : (s.withMsgByte a v).msg = s.msg.write a v := rfl
@[simp] theorem State.withMsgByte_dig (a : Nat) (v : Byte) : (s.withMsgByte a v).dig = s.dig := rfl
@[simp] theorem State.withMsgByte_seq (a : Nat) (v : Byte) : (s.withMsgByte a v).seq = s.seq := rfl
@[simp] theorem State.withMsgByte_blockIdx (a : Nat) (v : Byte) : (s.withMsgByte a v).blockIdx = s.blockIdx := rfl
@[simp] theorem State.withMsgByte_blockCount (a : Nat) (v : Byte) : (s.withMsgByte a v).blockCount = s.blockCount := rfl
@[simp] theorem State.withMsgByte_round (a : Nat) (v : Byte) : (s.withMsgByte a v).round = s.round := rfl
@[simp] theorem State.withMsgByte_jalg (a : Nat) (v : Byte) : (s.withMsgByte a v).jalg = s.jalg := rfl
@[simp] theorem State.withMsgByte_loaded (a : Nat) (v : Byte) : (s.withMsgByte a v).loaded = s.loaded := rfl
@[simp] theorem State.withMsgByte_fault (a : Nat) (v : Byte) : (s.withMsgByte a v).fault = s.fault := rfl
@[simp] theorem State.withMsgByte_input (a : Nat) (v : Byte) : (s.withMsgByte a v).input = s.input := rfl
@[simp] theorem State.withMsgByte_reads (a : Nat) (v : Byte) : (s.withMsgByte a v).reads = s.reads := rfl
@[simp] theorem State.withMsgByte_kind (a : Nat) (v : Byte) : (s.withMsgByte a v).kind = s.kind := rfl

/-! ### withInput -/

@[simp] theorem State.withInput_msgCap (l : List Event) : (s.withInput l).msgCap = s.msgCap := rfl
@[simp] theorem State.withInput_engine (l : List Event) : (s.withInput l).engine = s.engine := rfl
@[simp] theorem State.withInput_status (l : List Event) : (s.withInput l).status = s.status := rfl
@[simp] theorem State.withInput_len (l : List Event) : (s.withInput l).len = s.len := rfl
@[simp] theorem State.withInput_msg (l : List Event) : (s.withInput l).msg = s.msg := rfl
@[simp] theorem State.withInput_dig (l : List Event) : (s.withInput l).dig = s.dig := rfl
@[simp] theorem State.withInput_seq (l : List Event) : (s.withInput l).seq = s.seq := rfl
@[simp] theorem State.withInput_blockIdx (l : List Event) : (s.withInput l).blockIdx = s.blockIdx := rfl
@[simp] theorem State.withInput_blockCount (l : List Event) : (s.withInput l).blockCount = s.blockCount := rfl
@[simp] theorem State.withInput_round (l : List Event) : (s.withInput l).round = s.round := rfl
@[simp] theorem State.withInput_jalg (l : List Event) : (s.withInput l).jalg = s.jalg := rfl
@[simp] theorem State.withInput_loaded (l : List Event) : (s.withInput l).loaded = s.loaded := rfl
@[simp] theorem State.withInput_fault (l : List Event) : (s.withInput l).fault = s.fault := rfl
@[simp] theorem State.withInput_input (l : List Event) : (s.withInput l).input = l := rfl
@[simp] theorem State.withInput_reads (l : List Event) : (s.withInput l).reads = s.reads := rfl
@[simp] theorem State.withInput_kind (l : List Event) : (s.withInput l).kind = s.kind := rfl

/-! ### afterReset -/

@[simp] theorem State.afterReset_msgCap : (s.afterReset).msgCap = s.msgCap := rfl
@[simp] theorem State.afterReset_engine : (s.afterReset).engine = .unset s.kind := rfl
@[simp] theorem State.afterReset_status : (s.afterReset).status = { busy := false, done := false, lalg := .sha256 } := rfl
@[simp] theorem State.afterReset_len : (s.afterReset).len = 0x00000000#32 := rfl
@[simp] theorem State.afterReset_msg : (s.afterReset).msg = [] := rfl
@[simp] theorem State.afterReset_dig : (s.afterReset).dig = [] := rfl
@[simp] theorem State.afterReset_seq : (s.afterReset).seq = .idle := rfl
@[simp] theorem State.afterReset_blockIdx : (s.afterReset).blockIdx = none := rfl
@[simp] theorem State.afterReset_blockCount : (s.afterReset).blockCount = none := rfl
@[simp] theorem State.afterReset_round : (s.afterReset).round = none := rfl
@[simp] theorem State.afterReset_jalg : (s.afterReset).jalg = .sha256 := rfl
@[simp] theorem State.afterReset_loaded : (s.afterReset).loaded = false := rfl
@[simp] theorem State.afterReset_fault : (s.afterReset).fault = none := rfl
@[simp] theorem State.afterReset_input : (s.afterReset).input = s.input := rfl
@[simp] theorem State.afterReset_reads : (s.afterReset).reads = s.reads := rfl

/-! ### startJob -/

@[simp] theorem State.startJob_msgCap (alg : Alg) (g : Engine) (n : Nat) : (s.startJob alg g n).msgCap = s.msgCap := rfl
@[simp] theorem State.startJob_engine (alg : Alg) (g : Engine) (n : Nat) : (s.startJob alg g n).engine = g := rfl
@[simp] theorem State.startJob_status (alg : Alg) (g : Engine) (n : Nat) : (s.startJob alg g n).status = s.status.accept alg := rfl
@[simp] theorem State.startJob_len (alg : Alg) (g : Engine) (n : Nat) : (s.startJob alg g n).len = s.len := rfl
@[simp] theorem State.startJob_msg (alg : Alg) (g : Engine) (n : Nat) : (s.startJob alg g n).msg = s.msg := rfl
@[simp] theorem State.startJob_dig (alg : Alg) (g : Engine) (n : Nat) : (s.startJob alg g n).dig = s.dig := rfl
@[simp] theorem State.startJob_seq (alg : Alg) (g : Engine) (n : Nat) : (s.startJob alg g n).seq = .run := rfl
@[simp] theorem State.startJob_blockIdx (alg : Alg) (g : Engine) (n : Nat) : (s.startJob alg g n).blockIdx = some 0 := rfl
@[simp] theorem State.startJob_blockCount (alg : Alg) (g : Engine) (n : Nat) : (s.startJob alg g n).blockCount = some n := rfl
@[simp] theorem State.startJob_round (alg : Alg) (g : Engine) (n : Nat) : (s.startJob alg g n).round = some 0 := rfl
@[simp] theorem State.startJob_jalg (alg : Alg) (g : Engine) (n : Nat) : (s.startJob alg g n).jalg = alg := rfl
@[simp] theorem State.startJob_loaded (alg : Alg) (g : Engine) (n : Nat) : (s.startJob alg g n).loaded = false := rfl
@[simp] theorem State.startJob_fault (alg : Alg) (g : Engine) (n : Nat) : (s.startJob alg g n).fault = s.fault := rfl
@[simp] theorem State.startJob_input (alg : Alg) (g : Engine) (n : Nat) : (s.startJob alg g n).input = s.input := rfl
@[simp] theorem State.startJob_reads (alg : Alg) (g : Engine) (n : Nat) : (s.startJob alg g n).reads = s.reads := rfl

/-! ### blockLoaded -/

@[simp] theorem State.blockLoaded_msgCap (g : Engine) : (s.blockLoaded g).msgCap = s.msgCap := rfl
@[simp] theorem State.blockLoaded_engine (g : Engine) : (s.blockLoaded g).engine = g := rfl
@[simp] theorem State.blockLoaded_status (g : Engine) : (s.blockLoaded g).status = s.status := rfl
@[simp] theorem State.blockLoaded_len (g : Engine) : (s.blockLoaded g).len = s.len := rfl
@[simp] theorem State.blockLoaded_msg (g : Engine) : (s.blockLoaded g).msg = s.msg := rfl
@[simp] theorem State.blockLoaded_dig (g : Engine) : (s.blockLoaded g).dig = s.dig := rfl
@[simp] theorem State.blockLoaded_seq (g : Engine) : (s.blockLoaded g).seq = s.seq := rfl
@[simp] theorem State.blockLoaded_blockIdx (g : Engine) : (s.blockLoaded g).blockIdx = s.blockIdx := rfl
@[simp] theorem State.blockLoaded_blockCount (g : Engine) : (s.blockLoaded g).blockCount = s.blockCount := rfl
@[simp] theorem State.blockLoaded_round (g : Engine) : (s.blockLoaded g).round = some 0 := rfl
@[simp] theorem State.blockLoaded_jalg (g : Engine) : (s.blockLoaded g).jalg = s.jalg := rfl
@[simp] theorem State.blockLoaded_loaded (g : Engine) : (s.blockLoaded g).loaded = true := rfl
@[simp] theorem State.blockLoaded_fault (g : Engine) : (s.blockLoaded g).fault = s.fault := rfl
@[simp] theorem State.blockLoaded_input (g : Engine) : (s.blockLoaded g).input = s.input := rfl
@[simp] theorem State.blockLoaded_reads (g : Engine) : (s.blockLoaded g).reads = s.reads := rfl

/-! ### roundDone -/

@[simp] theorem State.roundDone_msgCap (g : Engine) (t : Nat) : (s.roundDone g t).msgCap = s.msgCap := rfl
@[simp] theorem State.roundDone_engine (g : Engine) (t : Nat) : (s.roundDone g t).engine = g := rfl
@[simp] theorem State.roundDone_status (g : Engine) (t : Nat) : (s.roundDone g t).status = s.status := rfl
@[simp] theorem State.roundDone_len (g : Engine) (t : Nat) : (s.roundDone g t).len = s.len := rfl
@[simp] theorem State.roundDone_msg (g : Engine) (t : Nat) : (s.roundDone g t).msg = s.msg := rfl
@[simp] theorem State.roundDone_dig (g : Engine) (t : Nat) : (s.roundDone g t).dig = s.dig := rfl
@[simp] theorem State.roundDone_seq (g : Engine) (t : Nat) : (s.roundDone g t).seq = s.seq := rfl
@[simp] theorem State.roundDone_blockIdx (g : Engine) (t : Nat) : (s.roundDone g t).blockIdx = s.blockIdx := rfl
@[simp] theorem State.roundDone_blockCount (g : Engine) (t : Nat) : (s.roundDone g t).blockCount = s.blockCount := rfl
@[simp] theorem State.roundDone_round (g : Engine) (t : Nat) : (s.roundDone g t).round = some t := rfl
@[simp] theorem State.roundDone_jalg (g : Engine) (t : Nat) : (s.roundDone g t).jalg = s.jalg := rfl
@[simp] theorem State.roundDone_loaded (g : Engine) (t : Nat) : (s.roundDone g t).loaded = s.loaded := rfl
@[simp] theorem State.roundDone_fault (g : Engine) (t : Nat) : (s.roundDone g t).fault = s.fault := rfl
@[simp] theorem State.roundDone_input (g : Engine) (t : Nat) : (s.roundDone g t).input = s.input := rfl
@[simp] theorem State.roundDone_reads (g : Engine) (t : Nat) : (s.roundDone g t).reads = s.reads := rfl

/-! ### blockChained -/

@[simp] theorem State.blockChained_msgCap (g : Engine) (i : Nat) (q : Seq) : (s.blockChained g i q).msgCap = s.msgCap := rfl
@[simp] theorem State.blockChained_engine (g : Engine) (i : Nat) (q : Seq) : (s.blockChained g i q).engine = g := rfl
@[simp] theorem State.blockChained_status (g : Engine) (i : Nat) (q : Seq) : (s.blockChained g i q).status = s.status := rfl
@[simp] theorem State.blockChained_len (g : Engine) (i : Nat) (q : Seq) : (s.blockChained g i q).len = s.len := rfl
@[simp] theorem State.blockChained_msg (g : Engine) (i : Nat) (q : Seq) : (s.blockChained g i q).msg = s.msg := rfl
@[simp] theorem State.blockChained_dig (g : Engine) (i : Nat) (q : Seq) : (s.blockChained g i q).dig = s.dig := rfl
@[simp] theorem State.blockChained_seq (g : Engine) (i : Nat) (q : Seq) : (s.blockChained g i q).seq = q := rfl
@[simp] theorem State.blockChained_blockIdx (g : Engine) (i : Nat) (q : Seq) : (s.blockChained g i q).blockIdx = some i := rfl
@[simp] theorem State.blockChained_blockCount (g : Engine) (i : Nat) (q : Seq) : (s.blockChained g i q).blockCount = s.blockCount := rfl
@[simp] theorem State.blockChained_round (g : Engine) (i : Nat) (q : Seq) : (s.blockChained g i q).round = s.round := rfl
@[simp] theorem State.blockChained_jalg (g : Engine) (i : Nat) (q : Seq) : (s.blockChained g i q).jalg = s.jalg := rfl
@[simp] theorem State.blockChained_loaded (g : Engine) (i : Nat) (q : Seq) : (s.blockChained g i q).loaded = false := rfl
@[simp] theorem State.blockChained_fault (g : Engine) (i : Nat) (q : Seq) : (s.blockChained g i q).fault = s.fault := rfl
@[simp] theorem State.blockChained_input (g : Engine) (i : Nat) (q : Seq) : (s.blockChained g i q).input = s.input := rfl
@[simp] theorem State.blockChained_reads (g : Engine) (i : Nat) (q : Seq) : (s.blockChained g i q).reads = s.reads := rfl

/-! ### jobDone -/

@[simp] theorem State.jobDone_msgCap (m : Memory) : (s.jobDone m).msgCap = s.msgCap := rfl
@[simp] theorem State.jobDone_engine (m : Memory) : (s.jobDone m).engine = s.engine := rfl
@[simp] theorem State.jobDone_status (m : Memory) : (s.jobDone m).status = s.status.complete := rfl
@[simp] theorem State.jobDone_len (m : Memory) : (s.jobDone m).len = s.len := rfl
@[simp] theorem State.jobDone_msg (m : Memory) : (s.jobDone m).msg = s.msg := rfl
@[simp] theorem State.jobDone_dig (m : Memory) : (s.jobDone m).dig = m := rfl
@[simp] theorem State.jobDone_seq (m : Memory) : (s.jobDone m).seq = .idle := rfl
@[simp] theorem State.jobDone_blockIdx (m : Memory) : (s.jobDone m).blockIdx = s.blockIdx := rfl
@[simp] theorem State.jobDone_blockCount (m : Memory) : (s.jobDone m).blockCount = s.blockCount := rfl
@[simp] theorem State.jobDone_round (m : Memory) : (s.jobDone m).round = s.round := rfl
@[simp] theorem State.jobDone_jalg (m : Memory) : (s.jobDone m).jalg = s.jalg := rfl
@[simp] theorem State.jobDone_loaded (m : Memory) : (s.jobDone m).loaded = s.loaded := rfl
@[simp] theorem State.jobDone_fault (m : Memory) : (s.jobDone m).fault = s.fault := rfl
@[simp] theorem State.jobDone_input (m : Memory) : (s.jobDone m).input = s.input := rfl
@[simp] theorem State.jobDone_reads (m : Memory) : (s.jobDone m).reads = s.reads := rfl
@[simp] theorem State.jobDone_kind (m : Memory) : (s.jobDone m).kind = s.kind := rfl

/-! ### The kind of a core -/

@[simp] theorem Engine.unset_kind (k : CoreKind) : (Engine.unset k).kind = k := by cases k <;> rfl

@[simp] theorem State.afterReset_kind : s.afterReset.kind = s.kind := Engine.unset_kind s.kind

theorem State.kind_eq : s.kind = s.engine.kind := rfl

/-! ### Status -/

@[simp] theorem Status.accept_busy (f : Status) (alg : Alg) : (f.accept alg).busy = true := rfl
@[simp] theorem Status.accept_done (f : Status) (alg : Alg) : (f.accept alg).done = false := rfl
@[simp] theorem Status.accept_lalg (f : Status) (alg : Alg) : (f.accept alg).lalg = alg := rfl
@[simp] theorem Status.complete_busy (f : Status) : f.complete.busy = false := rfl
@[simp] theorem Status.complete_done (f : Status) : f.complete.done = true := rfl
@[simp] theorem Status.complete_lalg (f : Status) : f.complete.lalg = f.lalg := rfl

/-! ### The message of a job depends on MSG and LEN only -/

theorem State.message_congr {s t : State} (hm : s.msg = t.msg) (hl : s.len = t.len) : s.message = t.message := by
  unfold State.message; rw [hm, hl]

end Sys2Proof.Machine
end

