-- ==== Sys2Proof/Laws/Memory.lean ====
section
/-! SUPPORT. The laws of the byte buffers: a read after a write, the canonical form, the cells a buffer holds, and the
two walks over consecutive cells. -/

namespace Sys2Proof.Machine

/-! ### Read after write -/

@[simp] theorem Memory.read_nil (a : Nat) : Memory.read [] a = none := rfl

theorem Memory.read_cons (b : Nat) (x : Byte) (m : Memory) (a : Nat) :
    Memory.read ((b, x) :: m) a = if a = b then some x else Memory.read m a := rfl

/-- An address below every listed one is unwritten. -/
theorem Memory.read_eq_none_of_lt {m : Memory} {a : Nat} (h : ∀ c ∈ m, a < c.1) : m.read a = none := by
  induction m with
  | nil => rfl
  | cons c m ih =>
    obtain ⟨b, x⟩ := c
    have hb : a < b := h (b, x) (List.mem_cons_self ..)
    rw [Memory.read_cons, if_neg (by omega)]
    exact ih fun c hc => h c (List.mem_cons_of_mem _ hc)

theorem Memory.read_write_same (m : Memory) (a : Nat) (v : Byte) : (m.write a v).read a = some v := by
  induction m with
  | nil => simp [Memory.write, Memory.read_cons]
  | cons c m ih =>
    obtain ⟨b, x⟩ := c
    unfold Memory.write
    split
    · simp [Memory.read_cons]
    · split
      · simp [Memory.read_cons]
      · rw [Memory.read_cons, if_neg (by assumption)]
        exact ih

theorem Memory.read_write_ne (m : Memory) {a b : Nat} (v : Byte) (h : b ≠ a) : (m.write a v).read b = m.read b := by
  induction m with
  | nil => simp [Memory.write, Memory.read_cons, h]
  | cons c m ih =>
    obtain ⟨d, x⟩ := c
    unfold Memory.write
    split
    · simp [Memory.read_cons, h]
    · split
      · next heq => subst heq; simp [Memory.read_cons, h]
      · rw [Memory.read_cons, Memory.read_cons, ih]

theorem Memory.read_write (m : Memory) (a b : Nat) (v : Byte) :
    (m.write a v).read b = if b = a then some v else m.read b := by
  split
  · next h => subst h; exact m.read_write_same b v
  · next h => exact m.read_write_ne v h

/-! ### The cells a buffer lists, and the canonical form -/

theorem Memory.mem_write {m : Memory} {a : Nat} {v : Byte} {c : Host.Cell} (h : c ∈ m.write a v) :
    c = (a, v) ∨ c ∈ m := by
  induction m with
  | nil => simpa [Memory.write] using h
  | cons d m ih =>
    obtain ⟨b, x⟩ := d
    unfold Memory.write at h
    split at h
    · simpa using h
    · split at h
      · rcases List.mem_cons.mp h with h | h
        · exact .inl h
        · exact .inr (List.mem_cons_of_mem _ h)
      · rcases List.mem_cons.mp h with h | h
        · exact .inr (h ▸ List.mem_cons_self ..)
        · exact (ih h).imp id (List.mem_cons_of_mem _)

theorem Memory.wf_nil : Memory.wf [] := List.Pairwise.nil

/-- A write keeps the canonical form. -/
theorem Memory.wf_write {m : Memory} (h : m.wf) (a : Nat) (v : Byte) : (m.write a v).wf := by
  induction m with
  | nil => simp [Memory.write, Memory.wf]
  | cons c m ih =>
    obtain ⟨b, x⟩ := c
    obtain ⟨hb, hm⟩ := List.pairwise_cons.mp h
    unfold Memory.write
    split
    · next hlt =>
      refine List.pairwise_cons.mpr ⟨fun c hc => ?_, h⟩
      rcases List.mem_cons.mp hc with rfl | hc
      · exact hlt
      · exact Nat.lt_trans hlt (hb c hc)
    · split
      · next heq => subst heq; exact List.pairwise_cons.mpr ⟨hb, hm⟩
      · next hlt hne =>
        refine List.pairwise_cons.mpr ⟨fun c hc => ?_, ih hm⟩
        rcases Memory.mem_write hc with rfl | hc
        · change b < a; omega
        · exact hb c hc

theorem Memory.wf_writeAll {m : Memory} (h : m.wf) (a : Nat) (vs : List Byte) : (m.writeAll a vs).wf := by
  induction vs generalizing m a with
  | nil => exact h
  | cons v vs ih => exact ih (Memory.wf_write h a v) (a + 1)

theorem Memory.mem_writeAll {m : Memory} {a : Nat} {vs : List Byte} {c : Host.Cell} (h : c ∈ m.writeAll a vs) :
    (a ≤ c.1 ∧ c.1 < a + vs.length) ∨ c ∈ m := by
  induction vs generalizing m a with
  | nil => exact .inr h
  | cons v vs ih =>
    rcases ih h with h | h
    · exact .inl ⟨by omega, by simp only [List.length_cons]; omega⟩
    · rcases Memory.mem_write h with rfl | h
      · exact .inl ⟨Nat.le_refl _, by simp⟩
      · exact .inr h

/-- Reading after `writeAll`: the bytes stored, and every other cell as before. -/
theorem Memory.read_writeAll (m : Memory) (a b : Nat) (vs : List Byte) :
    (m.writeAll a vs).read b = if a ≤ b ∧ b < a + vs.length then vs[b - a]? else m.read b := by
  induction vs generalizing m a with
  | nil => simp only [Memory.writeAll, List.length_nil]; rw [if_neg (by omega)]
  | cons v vs ih =>
    rw [Memory.writeAll, ih, Memory.read_write]
    by_cases hab : b = a
    · subst hab; simp
    · by_cases h : a + 1 ≤ b ∧ b < a + 1 + vs.length
      · rw [if_pos h, if_pos (by simp only [List.length_cons]; omega)]
        obtain ⟨k, rfl⟩ : ∃ k, b = a + 1 + k := ⟨b - (a + 1), by omega⟩
        rw [show a + 1 + k - (a + 1) = k by omega, show a + 1 + k - a = k + 1 by omega]
        rfl
      · rw [if_neg h, if_neg hab, if_neg (by simp only [List.length_cons]; omega)]

/-! ### Consecutive cells -/

theorem Memory.readAll_length {m : Memory} {a n : Nat} {vs : List Byte} (h : m.readAll a n = some vs) :
    vs.length = n := by
  induction n generalizing a vs with
  | zero => cases h; rfl
  | succ n ih =>
    unfold Memory.readAll at h
    split at h
    · cases h
    · obtain ⟨ws, hws, rfl⟩ := Option.map_eq_some_iff.mp h
      simp [ih hws]

theorem Memory.readAll_getElem? {m : Memory} {a n : Nat} {vs : List Byte} (h : m.readAll a n = some vs) (j : Nat)
    (hj : j < n) : vs[j]? = m.read (a + j) := by
  induction n generalizing a vs j with
  | zero => omega
  | succ n ih =>
    unfold Memory.readAll at h
    split at h
    · cases h
    · next v hv =>
      obtain ⟨ws, hws, rfl⟩ := Option.map_eq_some_iff.mp h
      cases j with
      | zero => simp [hv]
      | succ j => simpa [Nat.add_assoc, Nat.add_comm 1] using ih hws j (by omega)

/-- The bytes of a walk depend on the cells walked over only. -/
theorem Memory.readAll_congr {m m' : Memory} {a n : Nat} (h : ∀ j, j < n → m.read (a + j) = m'.read (a + j)) :
    m.readAll a n = m'.readAll a n := by
  induction n generalizing a with
  | zero => rfl
  | succ n ih =>
    unfold Memory.readAll
    rw [show m.read a = m'.read a from h 0 (by omega), ih (a := a + 1)]
    intro j hj
    have := h (j + 1) (by omega)
    rwa [show a + 1 + j = a + (j + 1) by omega]

/-- A walk meets an unwritten cell exactly when it answers no bytes. -/
theorem Memory.firstUnwritten_eq_none_iff {m : Memory} {a n : Nat} :
    m.firstUnwritten a n = none ↔ ∃ vs, m.readAll a n = some vs := by
  induction n generalizing a with
  | zero => simp [Memory.firstUnwritten, Memory.readAll]
  | succ n ih =>
    unfold Memory.firstUnwritten Memory.readAll
    cases hr : m.read a with
    | none => simp
    | some v => simp [ih]

/-- What the walk for the lowest unwritten cell answers. -/
theorem Memory.firstUnwritten_eq_some_iff {m : Memory} {a n j : Nat} :
    m.firstUnwritten a n = some j ↔
      a ≤ j ∧ j < a + n ∧ m.read j = none ∧ ∀ k, a ≤ k → k < j → m.read k ≠ none := by
  induction n generalizing a with
  | zero => simp [Memory.firstUnwritten]; intro h1 h2; omega
  | succ n ih =>
    unfold Memory.firstUnwritten
    split
    · next hr =>
      constructor
      · rintro h; cases h
        exact ⟨Nat.le_refl _, by omega, hr, fun k h1 h2 => by omega⟩
      · rintro ⟨h1, h2, h3, h4⟩
        by_cases haj : a = j
        · rw [haj]
        · exact absurd hr (h4 a (Nat.le_refl _) (by omega))
    · next hr =>
      rw [ih]
      constructor
      · rintro ⟨h1, h2, h3, h4⟩
        refine ⟨by omega, by omega, h3, fun k h5 h6 => ?_⟩
        by_cases hk : k = a
        · rw [hk]; exact hr
        · exact h4 k (by omega) h6
      · rintro ⟨h1, h2, h3, h4⟩
        have : a ≠ j := fun e => hr (e ▸ h3)
        exact ⟨by omega, by omega, h3, fun k h5 h6 => h4 k (by omega) h6⟩

end Sys2Proof.Machine
end

