-- ==== Sys2Proof/Laws/Host.lean ====
section
/-! SUPPORT. What each meaning of a host operation can do, once (its guard is the fault mark), so that no later proof
unfolds it: an equation for an unmarked state, and, for an answer `next t`, the cases. -/

namespace Sys2Proof.Machine

variable {s t : State}

/-! ### The guard and the fault -/

theorem State.ifEnabled_of_none (h : s.fault = none) (r : Result) : s.ifEnabled r = r := by
  unfold State.ifEnabled; rw [h]

theorem State.ifEnabled_of_some {m : FaultMark} (h : s.fault = some m) (r : Result) :
    s.ifEnabled r = .fault (.modelFault m) := by
  unfold State.ifEnabled; rw [h]

/-- A guarded operation that answers a next state ran in an unmarked state. -/
theorem State.ifEnabled_next {r : Result} (h : s.ifEnabled r = .next t) : s.fault = none ∧ r = .next t := by
  unfold State.ifEnabled at h
  split at h
  · cases h
  · next hf => exact ⟨hf, h⟩

theorem State.raiseFault_next {m : FaultMark} (h : s.raiseFault m = .next t) : t = s.withFault m := by
  cases h; rfl

/-- A fault of WR_LEN during a job names WR_LEN. -/
@[simp] theorem FaultMark.op_inputWrite_wrLen (data : HWord) :
    (FaultMark.inputWriteWhileBusy reqWrLen data).op = .wrLen := rfl

/-- No write of MSG has the REQ of WR_LEN. -/
theorem reqWrMsg_ne_reqWrLen (idx : Index) : reqWrMsg idx ≠ reqWrLen := by
  intro h
  have hb := congrArg (·.getLsbD 28) h
  simp only [reqWrMsg, reqWrLen, mkReq, BitVec.getLsbD_append] at hb
  simp at hb

/-- A fault of WR_MSG during a job names WR_MSG. -/
@[simp] theorem FaultMark.op_inputWrite_wrMsg (idx : Index) (data : HWord) :
    (FaultMark.inputWriteWhileBusy (reqWrMsg idx) data).op = .wrMsg := by
  simp [FaultMark.op, reqWrMsg_ne_reqWrLen]

theorem Result.ofOption_next {o : Option State} (h : Result.ofOption o = .next t) : o = some t := by
  cases o with
  | none => cases h
  | some u => cases h; rfl

/-! ### MD_INIT and Accepts (R24, R170) -/

/-- MD_INIT is defined exactly for the algorithms the kind of the core accepts. -/
theorem Engine.init_isSome (g : Engine) (alg : Alg) : (g.init alg).isSome = accepts g.kind alg := by
  cases g <;> cases alg <;> rfl

theorem Engine.init_eq_none_iff (g : Engine) (alg : Alg) : g.init alg = none ↔ accepts g.kind alg = false := by
  cases g <;> cases alg <;> simp [Engine.init, Engine.kind, accepts]

/-- MD_INIT keeps the kind of the core. -/
theorem Engine.init_kind {g g' : Engine} {alg : Alg} (h : g.init alg = some g') : g'.kind = g.kind := by
  cases g <;> cases alg <;> simp [Engine.init] at h <;> subst h <;> rfl

/-! ### Acceptance of a command (R200) -/

/-- Every way acceptance can answer, in the order of R200. -/
theorem State.acceptHash_cases (s : State) (data : HWord) (alg : Alg) :
    (accepts s.kind alg = false ∧ s.acceptHash data alg = s.raiseFault (.unsupportedAlg data s.kind)) ∨
    (accepts s.kind alg = true ∧ s.status.busy = true ∧ s.acceptHash data alg = s.raiseFault (.commandWhileBusy data)) ∨
    (accepts s.kind alg = true ∧ s.status.busy = false ∧ s.msgCap.val < s.len.toNat ∧
      s.acceptHash data alg = s.raiseFault (.lengthExceedsCapacity s.len)) ∨
    (accepts s.kind alg = true ∧ s.status.busy = false ∧ s.len.toNat ≤ s.msgCap.val ∧
      ∃ j, s.msg.firstUnwritten 0 s.len.toNat = some j ∧
        s.acceptHash data alg = s.raiseFault (.unwrittenMessageByte .wrCmd j)) ∨
    (accepts s.kind alg = true ∧ s.status.busy = false ∧ s.len.toNat ≤ s.msgCap.val ∧
      s.msg.firstUnwritten 0 s.len.toNat = none ∧
      ∃ g, s.engine.init alg = some g ∧
        s.acceptHash data alg = .next (s.startJob alg g (blocksFor (algWidth alg) s.len.toNat))) := by
  unfold State.acceptHash
  cases hg : s.engine.init alg with
  | none => exact .inl ⟨(Engine.init_eq_none_iff _ _).mp hg, rfl⟩
  | some g =>
    have hacc : accepts s.kind alg = true := by
      rw [State.kind_eq, ← Engine.init_isSome, hg]; rfl
    refine .inr ?_
    cases hb : s.status.busy with
    | true => exact .inl ⟨hacc, rfl, by simp⟩
    | false =>
      refine .inr ?_
      by_cases hl : s.len.toNat > s.msgCap.val
      · exact .inl ⟨hacc, rfl, hl, by simp [hl]⟩
      · refine .inr ?_
        have hl' : s.len.toNat ≤ s.msgCap.val := by omega
        cases hu : s.msg.firstUnwritten 0 s.len.toNat with
        | some j => exact .inl ⟨hacc, rfl, hl', j, rfl, by simp [hl]⟩
        | none => exact .inr ⟨hacc, rfl, hl', rfl, g, rfl, by simp [hl]⟩

/-- Every way the write of a command word can answer: the decode of DATA (R85), then acceptance. -/
theorem State.writeCommand_cases (s : State) (data : HWord) :
    ((cmdRsv data ≠ 0 ∨ cmdOp data ≠ opHash) ∧ s.writeCommand data = s.raiseFault (.reservedCommand data)) ∨
    (cmdRsv data = 0 ∧ cmdOp data = opHash ∧
      ((algOfCode (cmdAlg data) = none ∧ s.writeCommand data = s.raiseFault (.reservedAlg data)) ∨
       ∃ alg, algOfCode (cmdAlg data) = some alg ∧ s.writeCommand data = s.acceptHash data alg)) := by
  unfold State.writeCommand
  by_cases h : cmdRsv data ≠ 0 ∨ cmdOp data ≠ opHash
  · exact .inl ⟨h, if_pos h⟩
  · rw [if_neg h]
    refine .inr ⟨by_contra fun e => h (.inl e), by_contra fun e => h (.inr e), ?_⟩
    cases algOfCode (cmdAlg data) with
    | none => exact .inl ⟨rfl, rfl⟩
    | some alg => exact .inr ⟨alg, rfl, rfl⟩

/-! ### The cases of every operation's next state -/

/-- Acceptance answers a marked state, equal otherwise, or the started job. -/
theorem State.acceptHash_next {data : HWord} {alg : Alg} (h : s.acceptHash data alg = .next t) :
    (∃ m, t = s.withFault m) ∨
      (accepts s.kind alg = true ∧ s.status.busy = false ∧ s.len.toNat ≤ s.msgCap.val ∧
        s.msg.firstUnwritten 0 s.len.toNat = none ∧
        ∃ g, s.engine.init alg = some g ∧ t = s.startJob alg g (blocksFor (algWidth alg) s.len.toNat)) := by
  rcases s.acceptHash_cases data alg with ⟨-, e⟩ | ⟨-, -, e⟩ | ⟨-, -, -, e⟩ | ⟨-, -, -, j, -, e⟩ | ⟨h1, h2, h3, h4, g, hg, e⟩
  · exact .inl ⟨_, State.raiseFault_next (e ▸ h)⟩
  · exact .inl ⟨_, State.raiseFault_next (e ▸ h)⟩
  · exact .inl ⟨_, State.raiseFault_next (e ▸ h)⟩
  · exact .inl ⟨_, State.raiseFault_next (e ▸ h)⟩
  · rw [e] at h; cases h
    exact .inr ⟨h1, h2, h3, h4, g, hg, rfl⟩

theorem State.writeCommand_next {data : HWord} (h : s.writeCommand data = .next t) :
    (∃ m, t = s.withFault m) ∨ ∃ alg, s.acceptHash data alg = .next t := by
  rcases s.writeCommand_cases data with ⟨-, e⟩ | ⟨-, -, ⟨-, e⟩ | ⟨alg, -, e⟩⟩
  · exact .inl ⟨_, State.raiseFault_next (e ▸ h)⟩
  · exact .inl ⟨_, State.raiseFault_next (e ▸ h)⟩
  · exact .inr ⟨alg, e ▸ h⟩

/-- The next states an instruction can answer from `s`. -/
inductive HostEffect (s : State) : State → Prop where
  /-- a model fault: only the mark is set (R300) -/
  | marked (m : FaultMark) : HostEffect s (s.withFault m)
  /-- a read: only the host's list of read values grows (R69) -/
  | didRead (v : HWord) : HostEffect s (s.withRead v)
  /-- LEN, not while a job runs (R202) -/
  | wroteLen (v : HWord) (idle : s.status.busy = false) : HostEffect s (s.withLen v)
  /-- one byte of MSG, not while a job runs (R203) -/
  | wroteMsg (a : Nat) (v : Byte) (idle : s.status.busy = false) (inCap : a < s.msgCap.val) :
      HostEffect s (s.withMsgByte a v)
  /-- the start of a job (R200) -/
  | started (alg : Alg) (g : Engine) (acc : accepts s.kind alg = true) (idle : s.status.busy = false)
      (fits : s.len.toNat ≤ s.msgCap.val) (written : s.msg.firstUnwritten 0 s.len.toNat = none)
      (init : s.engine.init alg = some g) :
      HostEffect s (s.startJob alg g (blocksFor (algWidth alg) s.len.toNat))
  /-- RESET (R206) -/
  | wasReset : HostEffect s s.afterReset

theorem State.acceptHash_effect {data : HWord} {alg : Alg} (h : s.acceptHash data alg = .next t) : HostEffect s t := by
  rcases State.acceptHash_next h with ⟨m, rfl⟩ | ⟨h1, h2, h3, h4, g, h5, rfl⟩
  · exact .marked m
  · exact .started alg g h1 h2 h3 h4 h5

theorem State.raiseFault_effect {m : FaultMark} (h : s.raiseFault m = .next t) : HostEffect s t := by
  rw [State.raiseFault_next h]; exact .marked m

/-- Every next state of every instruction. -/
theorem exec_next {i : Instr} (h : exec i s = .next t) : s.fault = none ∧ HostEffect s t := by
  cases i with
  | wrCmd data =>
    obtain ⟨hf, h⟩ := State.ifEnabled_next h
    refine ⟨hf, ?_⟩
    rcases State.writeCommand_next h with ⟨m, rfl⟩ | ⟨alg, h⟩
    · exact .marked m
    · exact State.acceptHash_effect h
  | hashSha256 => exact (State.ifEnabled_next h).imp id State.acceptHash_effect
  | hashSha384 => exact (State.ifEnabled_next h).imp id State.acceptHash_effect
  | hashSha512 => exact (State.ifEnabled_next h).imp id State.acceptHash_effect
  | rdStatus =>
    obtain ⟨hf, h⟩ := State.ifEnabled_next h
    cases h
    exact ⟨hf, .didRead _⟩
  | wrLen data =>
    obtain ⟨hf, h⟩ := State.ifEnabled_next h
    refine ⟨hf, ?_⟩
    split at h
    · exact State.raiseFault_effect h
    · next hb => cases h; exact .wroteLen _ (by simpa using hb)
  | rdLen =>
    obtain ⟨hf, h⟩ := State.ifEnabled_next h
    cases h
    exact ⟨hf, .didRead _⟩
  | wrMsg idx data =>
    obtain ⟨hf, h⟩ := State.ifEnabled_next h
    refine ⟨hf, ?_⟩
    split at h
    · exact State.raiseFault_effect h
    · next hi =>
      split at h
      · exact State.raiseFault_effect h
      · split at h
        · exact State.raiseFault_effect h
        · next hb => cases h; exact .wroteMsg _ _ (by simpa using hb) (by omega)
  | rdMsg idx =>
    obtain ⟨hf, h⟩ := State.ifEnabled_next h
    refine ⟨hf, ?_⟩
    split at h
    · exact State.raiseFault_effect h
    · split at h
      · exact State.raiseFault_effect h
      · cases h; exact .didRead _
  | rdDig idx =>
    obtain ⟨hf, h⟩ := State.ifEnabled_next h
    refine ⟨hf, ?_⟩
    split at h
    · exact State.raiseFault_effect h
    · split at h
      · exact State.raiseFault_effect h
      · split at h
        · exact State.raiseFault_effect h
        · split at h
          · cases h
          · cases h; exact .didRead _
  | reset =>
    obtain ⟨hf, h⟩ := State.ifEnabled_next h
    cases h
    exact ⟨hf, .wasReset⟩

/-- A turn of the host: the cases of its instruction, or the mark of the decoder's rejection. -/
theorem State.hostTurn_next {op : HostOp} (h : s.hostTurn op = .next t) : HostEffect s t := by
  unfold State.hostTurn at h
  split at h
  · exact (exec_next h).2
  · exact State.raiseFault_effect h

end Sys2Proof.Machine
end

