-- ==== Sys2Proof/Laws/Job.lean ====
section
/-! SUPPORT. The core agent: what each part of CoreRun answers and when it has a value, on the datapath and on the
state; what a turn can do. -/

namespace Sys2Proof.Machine

variable {s t : State}

/-! ### The datapath's operations -/

theorem Datapath.load_eq_some {w e : Nat} {c : WordConfig w e} {p : List Byte} {i : Nat} {d d' : Datapath w e} :
    d.load c p i = some d' ↔ ∃ H, d.hash = some H ∧
      d' = ⟨some H, some (loadWork H), some (schedule c (parseBlock w p i)), some (parseBlock w p i)⟩ := by
  unfold Datapath.load
  cases hH : d.hash with
  | none => simp
  | some H => simp [eq_comm]

theorem Datapath.round_eq_some {w e : Nat} {c : WordConfig w e} {n : Nat} {d d' : Datapath w e} :
    d.round c n = some d' ↔ ∃ x W, d.work = some x ∧ d.sched = some W ∧
      d' = { d with work := some (roundAt c W x n) } := by
  unfold Datapath.round
  cases hx : d.work <;> cases hW : d.sched <;> simp [eq_comm]

theorem Datapath.chain_eq_some {w e : Nat} {d d' : Datapath w e} :
    d.chain = some d' ↔ ∃ H x, d.hash = some H ∧ d.work = some x ∧
      d' = { d with hash := some (chainWork H x) } := by
  unfold Datapath.chain
  cases hH : d.hash <;> cases hx : d.work <;> simp [eq_comm]

/-! ### The kind and the width of a core do not change -/

theorem Engine.load_kind {p : List Byte} {i : Nat} {g g' : Engine} (h : g.load p i = some g') : g'.kind = g.kind := by
  cases g <;> obtain ⟨d, -, rfl⟩ := Option.map_eq_some_iff.mp h <;> rfl

theorem Engine.round_kind {n : Nat} {g g' : Engine} (h : g.round n = some g') : g'.kind = g.kind := by
  cases g <;> obtain ⟨d, -, rfl⟩ := Option.map_eq_some_iff.mp h <;> rfl

theorem Engine.chain_kind {g g' : Engine} (h : g.chain = some g') : g'.kind = g.kind := by
  cases g <;> obtain ⟨d, -, rfl⟩ := Option.map_eq_some_iff.mp h <;> rfl

theorem Engine.width_of_kind {g g' : Engine} (h : g'.kind = g.kind) : g'.width = g.width := by
  cases g <;> cases g' <;> first | rfl | cases h

theorem Engine.rounds_of_kind {g g' : Engine} (h : g'.kind = g.kind) : g'.rounds = g.rounds := by
  cases g <;> cases g' <;> first | rfl | cases h

/-- The width of a core is that of every algorithm it accepts. -/
theorem Engine.width_of_accepts {g : Engine} {alg : Alg} (h : accepts g.kind alg = true) : algWidth alg = g.width := by
  cases g <;> cases alg <;> first | rfl | cases h

/-! ### The parts of CoreRun on the state -/

theorem State.mdLoad_eq_some : s.mdLoad = some t ↔
    ∃ m i g, s.message = some m ∧ s.blockIdx = some i ∧ s.engine.load (padded s.engine.width m) i = some g ∧
      t = s.blockLoaded g := by
  unfold State.mdLoad
  cases s.message <;> cases s.blockIdx <;> simp [eq_comm]

theorem State.mdRound_eq_some : s.mdRound = some t ↔
    ∃ n g, s.round = some n ∧ s.engine.round n = some g ∧ t = s.roundDone g (n + 1) := by
  unfold State.mdRound
  cases s.round <;> simp [eq_comm]

theorem State.mdChain_eq_some : s.mdChain = some t ↔
    ∃ i n g, s.blockIdx = some i ∧ s.blockCount = some n ∧ s.engine.chain = some g ∧
      t = s.blockChained g (i + 1) (if i + 1 < n then .run else .out) := by
  unfold State.mdChain
  cases s.blockIdx <;> cases s.blockCount <;> simp [eq_comm]

theorem State.digest_eq_some : s.digest = some t ↔
    ∃ bs, s.engine.serialize = some bs ∧ t = s.jobDone (s.dig.writeAll 0 (bs.take (digestLen s.jalg))) := by
  unfold State.digest
  simp [eq_comm]

/-! ### What the core's turns leave alone -/

/-- `t` is `s` but for the datapath's contents, the place in the job, and what the end of a job writes. -/
structure State.CoreFrame (s t : State) : Prop where
  msgCap : t.msgCap = s.msgCap
  kind : t.kind = s.kind
  len : t.len = s.len
  msg : t.msg = s.msg
  jalg : t.jalg = s.jalg
  lalg : t.status.lalg = s.status.lalg
  blockCount : t.blockCount = s.blockCount
  fault : t.fault = s.fault
  input : t.input = s.input
  reads : t.reads = s.reads

theorem State.CoreFrame.rfl' (s : State) : s.CoreFrame s := ⟨rfl, rfl, rfl, rfl, rfl, rfl, rfl, rfl, rfl, rfl⟩

theorem State.CoreFrame.trans' {s t u : State} (a : s.CoreFrame t) (b : t.CoreFrame u) : s.CoreFrame u :=
  ⟨b.1.trans a.1, b.2.trans a.2, b.3.trans a.3, b.4.trans a.4, b.5.trans a.5, b.6.trans a.6, b.7.trans a.7,
    b.8.trans a.8, b.9.trans a.9, b.10.trans a.10⟩

theorem State.mdLoad_frame (h : s.mdLoad = some t) : s.CoreFrame t := by
  obtain ⟨m, i, g, -, -, hg, rfl⟩ := State.mdLoad_eq_some.mp h
  exact ⟨rfl, Engine.load_kind hg, rfl, rfl, rfl, rfl, rfl, rfl, rfl, rfl⟩

theorem State.mdRound_frame (h : s.mdRound = some t) : s.CoreFrame t := by
  obtain ⟨n, g, -, hg, rfl⟩ := State.mdRound_eq_some.mp h
  exact ⟨rfl, Engine.round_kind hg, rfl, rfl, rfl, rfl, rfl, rfl, rfl, rfl⟩

theorem State.mdChain_frame (h : s.mdChain = some t) : s.CoreFrame t := by
  obtain ⟨i, n, g, -, -, hg, rfl⟩ := State.mdChain_eq_some.mp h
  exact ⟨rfl, Engine.chain_kind hg, rfl, rfl, rfl, rfl, rfl, rfl, rfl, rfl⟩

theorem State.digest_frame (h : s.digest = some t) : s.CoreFrame t := by
  obtain ⟨bs, -, rfl⟩ := State.digest_eq_some.mp h
  exact ⟨rfl, rfl, rfl, rfl, rfl, rfl, rfl, rfl, rfl, rfl⟩

theorem State.mdRounds_frame {k : Nat} (h : State.mdRounds k s = some t) : s.CoreFrame t := by
  induction k generalizing s with
  | zero => cases h; exact .rfl' _
  | succ k ih =>
    obtain ⟨u, hu, h⟩ := Option.bind_eq_some_iff.mp h
    exact (State.mdRound_frame hu).trans' (ih h)

theorem State.mdBlock_frame (h : s.mdBlock = some t) : s.CoreFrame t := by
  obtain ⟨u, hu, h⟩ := Option.bind_eq_some_iff.mp h
  exact (State.mdRounds_frame hu).trans' (State.mdChain_frame h)

theorem State.mdBlocks_frame {k : Nat} (h : State.mdBlocks k s = some t) : s.CoreFrame t := by
  induction k generalizing s with
  | zero => cases h; exact .rfl' _
  | succ k ih =>
    obtain ⟨u, hu, h⟩ := Option.bind_eq_some_iff.mp h
    obtain ⟨v, hv, h⟩ := Option.bind_eq_some_iff.mp h
    exact (State.mdLoad_frame hu).trans' ((State.mdBlock_frame hv).trans' (ih h))

/-! ### The cases of a micro-step and of CoreRun -/

/-- A micro-step that answers a next state is idle, or one of the four parts. -/
theorem State.coreMicro_next (h : s.coreMicro = .next t) :
    (s.seq = .idle ∧ t = s) ∨
    (s.seq = .run ∧ s.loaded = false ∧ s.mdLoad = some t) ∨
    (s.seq = .run ∧ s.loaded = true ∧ (∃ n, s.round = some n ∧ n < s.engine.rounds) ∧ s.mdRound = some t) ∨
    (s.seq = .run ∧ s.loaded = true ∧ (∃ n, s.round = some n ∧ s.engine.rounds ≤ n) ∧ s.mdChain = some t) ∨
    (s.seq ≠ .idle ∧ (s.seq = .run → ∃ i n, s.blockIdx = some i ∧ s.blockCount = some n ∧ n ≤ i) ∧
      s.digest = some t) := by
  unfold State.coreMicro at h
  split at h
  · next hq => cases h; exact .inl ⟨hq, rfl⟩
  · next hq => exact .inr (.inr (.inr (.inr ⟨by simp [hq], by simp [hq], Result.ofOption_next h⟩)))
  · next hq =>
    split at h
    · next i n k hi hn hk =>
      split at h
      · split at h
        · next hl =>
          split at h
          · next hlt => exact .inr (.inr (.inl ⟨hq, hl, ⟨k, hk, hlt⟩, Result.ofOption_next h⟩))
          · next hlt => exact .inr (.inr (.inr (.inl ⟨hq, hl, ⟨k, hk, by omega⟩, Result.ofOption_next h⟩)))
        · next hl => exact .inr (.inl ⟨hq, by simpa using hl, Result.ofOption_next h⟩)
      · next hlt =>
        exact .inr (.inr (.inr (.inr ⟨by simp [hq], fun _ => ⟨i, n, hi, hn, by omega⟩, Result.ofOption_next h⟩)))
    · cases h

/-- CoreRun that answers a next state is idle, or the loop of R177 and DIGEST. -/
theorem State.coreRun_next (h : s.coreRun = .next t) :
    (s.seq = .idle ∧ t = s) ∨
    (s.seq ≠ .idle ∧ ∃ i n u, s.blockIdx = some i ∧ s.blockCount = some n ∧ State.mdBlocks (n - i) s = some u ∧
      u.digest = some t) := by
  have body : ∀ (hq : s.seq ≠ .idle),
      (match s.blockIdx, s.blockCount with
        | some i, some n => Result.ofOption ((State.mdBlocks (n - i) s).bind State.digest)
        | _, _ => .fault .noValue) = .next t →
      ∃ i n u, s.blockIdx = some i ∧ s.blockCount = some n ∧ State.mdBlocks (n - i) s = some u ∧
        u.digest = some t := by
    intro hq h
    split at h
    · next i n hi hn =>
      obtain ⟨u, hu, hd⟩ := Option.bind_eq_some_iff.mp (Result.ofOption_next h)
      exact ⟨i, n, u, hi, hn, hu, hd⟩
    · cases h
  unfold State.coreRun at h
  cases hq : s.seq with
  | idle => rw [hq] at h; cases h; exact .inl ⟨rfl, rfl⟩
  | run => rw [hq] at h; exact .inr ⟨by simp, body (by simp [hq]) h⟩
  | out => rw [hq] at h; exact .inr ⟨by simp, body (by simp [hq]) h⟩

theorem State.coreMicro_frame (h : s.coreMicro = .next t) : s.CoreFrame t := by
  rcases State.coreMicro_next h with ⟨-, rfl⟩ | ⟨-, -, h⟩ | ⟨-, -, -, h⟩ | ⟨-, -, -, h⟩ | ⟨-, -, h⟩
  · exact .rfl' _
  · exact State.mdLoad_frame h
  · exact State.mdRound_frame h
  · exact State.mdChain_frame h
  · exact State.digest_frame h

theorem State.coreRun_frame (h : s.coreRun = .next t) : s.CoreFrame t := by
  rcases State.coreRun_next h with ⟨-, rfl⟩ | ⟨-, i, n, u, -, -, hu, hd⟩
  · exact .rfl' _
  · exact (State.mdBlocks_frame hu).trans' (State.digest_frame hd)

/-! ### The cases of a step -/

/-- A step that answers a next state: nothing was marked, and it is a turn of the host, a micro-step or CoreRun, taken
from the interleaving, or CoreRun where the interleaving is at its end. -/
theorem step_next (h : step s = .next t) :
    s.fault = none ∧
      ((s.input = [] ∧ s.coreRun = .next t) ∨
       (∃ rest, s.input = .coreMicro :: rest ∧ (s.withInput rest).coreMicro = .next t) ∨
       (∃ rest, s.input = .coreRun :: rest ∧ (s.withInput rest).coreRun = .next t) ∨
       (∃ op rest, s.input = .host op :: rest ∧ (s.withInput rest).hostTurn op = .next t)) := by
  unfold step at h
  split at h
  · cases h
  · next hf =>
    refine ⟨hf, ?_⟩
    unfold State.nextTurn at h
    split at h
    · next hi => exact .inl ⟨hi, h⟩
    · next ev rest hi =>
      cases ev with
      | host op => exact .inr (.inr (.inr ⟨op, rest, hi, h⟩))
      | coreMicro => exact .inr (.inl ⟨rest, hi, h⟩)
      | coreRun => exact .inr (.inr (.inl ⟨rest, hi, h⟩))

/-- A property that the host's effects, the parts of a job and the taking of a turn keep is kept by every step. The
parts are given with the phase they run in. -/
theorem step_keeps {P : State → Prop}
    (input : ∀ s l, P s → P (s.withInput l))
    (host : ∀ s t, P s → HostEffect s t → P t)
    (micro : ∀ s t, P s → s.coreMicro = .next t → P t)
    (run : ∀ s t, P s → s.coreRun = .next t → P t)
    (h : step s = .next t) (hs : P s) : P t := by
  obtain ⟨-, ⟨-, h⟩ | ⟨rest, -, h⟩ | ⟨rest, -, h⟩ | ⟨op, rest, -, h⟩⟩ := step_next h
  · exact run _ _ hs h
  · exact micro _ _ (input _ _ hs) h
  · exact run _ _ (input _ _ hs) h
  · exact host _ _ (input _ _ hs) (State.hostTurn_next h)

/-! ### Runs -/

theorem run_zero (s : State) : Host.Core.run Sys2Proof.core 0 s = .next s := rfl

theorem core_run_succ (M : Host.Core) {k : Nat} {a b : M.State} (h : M.step a = .next b) :
    M.run (k + 1) a = M.run k b := by
  simp only [Host.Core.run, h]

/-- A run takes its first step first. -/
theorem run_succ {k : Nat} (h : step s = .next t) :
    Host.Core.run Sys2Proof.core (k + 1) s = Host.Core.run Sys2Proof.core k t :=
  core_run_succ Sys2Proof.core h

end Sys2Proof.Machine
end

