-- ==== Sys2Proof/Laws/Words.lean ====
section
/-! SUPPORT. The word operations and the schedule: the rotation bit by bit and as the library's, and the growth of
a schedule. -/

namespace Sys2Proof.Machine

/-! ### Rotation -/

/-- R100's formula is the library's rotation. -/
theorem rotr_eq_rotateRight {w : Nat} (x : BitVec w) (n : Nat) (h : n < w) : rotr x n = x.rotateRight n := by
  rw [rotr, BitVec.rotateRight_eq_rotateRightAux_of_lt h]; rfl

/-- Bit `i` of a rotated word is bit `(i + n) mod w`. -/
theorem rotr_getLsbD {w : Nat} (x : BitVec w) (n i : Nat) (h : n < w) (hi : i < w) :
    (rotr x n).getLsbD i = x.getLsbD ((i + n) % w) := by
  simp only [rotr, BitVec.getLsbD_or, BitVec.getLsbD_ushiftRight, BitVec.getLsbD_shiftLeft, hi, decide_true,
    Bool.true_and]
  by_cases hlt : i < w - n
  · rw [Nat.mod_eq_of_lt (by omega)]
    simp [hlt, Nat.add_comm]
  · have hm : (i + n) % w = i - (w - n) := by
      rw [show i + n = (i - (w - n)) + w by omega, Nat.add_mod_right, Nat.mod_eq_of_lt (by omega)]
    rw [hm, BitVec.getLsbD_of_ge x (n + i) (by omega)]
    simp [hlt]

/-! ### Schedules -/

/-- One more entry leaves the entries before it. -/
theorem scheduleTo_succ_lt {w e : Nat} (c : WordConfig w e) (mb : Vector (BitVec w) 16) (n t : Nat) (h : t < 16 + n)
    (h' : t < 16 + (n + 1)) : (scheduleTo c mb (n + 1))[t] = (scheduleTo c mb n)[t] := by
  simp only [scheduleTo]
  exact Vector.getElem_push_lt ..

/-- The newest entry. -/
theorem scheduleTo_succ_last {w e : Nat} (c : WordConfig w e) (mb : Vector (BitVec w) 16) (n : Nat)
    (h' : 16 + n < 16 + (n + 1)) :
    (scheduleTo c mb (n + 1))[16 + n] = nextScheduleWord c (scheduleTo c mb n) := by
  simp only [scheduleTo, Vector.getElem_push_eq]

end Sys2Proof.Machine
end

