-- ==== Sys2Proof/Laws/Padder.lean ====
section
/-! SUPPORT. Big-endian bytes, the padded message, the words of its blocks, and the serialised hash: their lengths and
their elements. -/

namespace Sys2Proof.Machine

/-! ### Big-endian bytes (R12) -/

@[simp] theorem beBytes_length (n v : Nat) : (beBytes n v).length = n := by simp [beBytes]

theorem beBytes_getElem? (n v k : Nat) (h : k < n) : (beBytes n v)[k]? = some (beByte n v k) := by
  rw [beBytes, List.getElem?_map, List.getElem?_range h]; rfl

theorem beBytes_succ (n v : Nat) : beBytes (n + 1) v = BitVec.ofNat 8 (v / 2 ^ (8 * n)) :: beBytes n v := by
  simp only [beBytes, List.range_succ_eq_map, List.map_cons, List.map_map]
  congr 1
  apply List.map_congr_left
  intro k _
  simp only [Function.comp, beByte]
  congr 4; omega

/-- The bytes of a number in two parts. -/
theorem beBytes_add (a b v : Nat) : beBytes (a + b) v = beBytes a (v / 2 ^ (8 * b)) ++ beBytes b v := by
  induction a with
  | zero => simp [beBytes]
  | succ a ih =>
    rw [show a + 1 + b = (a + b) + 1 by omega, beBytes_succ, ih, beBytes_succ, Nat.div_div_eq_div_mul, ← pow_add,
      List.cons_append]
    congr 4; ring

theorem fromBE_lt (l : List Byte) : fromBE l < 2 ^ (8 * l.length) := by
  induction l with
  | nil => simp [fromBE]
  | cons b l ih =>
    simp only [fromBE, List.length_cons]
    have := b.isLt
    rw [show 8 * (l.length + 1) = 8 + 8 * l.length by ring, pow_add]
    nlinarith

/-- `BE_n` keeps a number modulo `2^(8n)`. -/
theorem fromBE_beBytes_mod (n v : Nat) : fromBE (beBytes n v) = v % 2 ^ (8 * n) := by
  induction n with
  | zero => simp [beBytes, fromBE, Nat.mod_one]
  | succ n ih =>
    rw [beBytes_succ, fromBE, ih, beBytes_length, show 8 * (n + 1) = 8 * n + 8 by ring, pow_add, Nat.mod_mul]
    simp only [BitVec.toNat_ofNat]
    ring

/-- `fromBE` as R12's sum over the bytes. -/
theorem fromBE_eq_sum (l : List Byte) :
    fromBE l = ∑ k ∈ Finset.range l.length, (l.getD k 0).toNat * 2 ^ (8 * (l.length - 1 - k)) := by
  induction l with
  | nil => simp [fromBE]
  | cons b l ih =>
    rw [fromBE, List.length_cons, Finset.sum_range_succ', ih, add_comm]
    congr 1
    apply Finset.sum_congr rfl
    intro k _
    simp only [List.getD_cons_succ]
    congr 3; omega

/-! ### The block count (R131) -/

theorem blocksFor_32 (n : Nat) : blocksFor 32 n = n / 64 + (if n % 64 ≥ 56 then 2 else 1) := rfl

theorem blocksFor_64 (n : Nat) : blocksFor 64 n = n / 128 + (if n % 128 ≥ 112 then 2 else 1) := rfl

/-- A job has at least one block. -/
theorem blocksFor_pos (w n : Nat) : 0 < blocksFor w n := by
  unfold blocksFor
  split
  · exact Nat.lt_of_lt_of_le (by decide) (Nat.le_add_left _ _)
  · exact Nat.lt_of_lt_of_le (by decide) (Nat.le_add_left _ _)

/-! ### The padded message (R132) -/

/-- The marker and the length field fit in the blocks, and the zero fill is shorter than a block. -/
theorem padding_fits (w n : Nat) (hw : w = 32 ∨ w = 64) :
    n + 1 + lengthBytes w ≤ blocksFor w n * blockBytes w ∧ zeroFill w n < blockBytes w := by
  rcases hw with rfl | rfl
  · rw [show blockBytes 32 = 64 from rfl, show lengthBytes 32 = 8 from rfl,
      show zeroFill 32 n = blocksFor 32 n * 64 - 8 - n - 1 from rfl, blocksFor_32]
    split <;> omega
  · rw [show blockBytes 64 = 128 from rfl, show lengthBytes 64 = 16 from rfl,
      show zeroFill 64 n = blocksFor 64 n * 128 - 16 - n - 1 from rfl, blocksFor_64]
    split <;> omega

theorem padded_length (w : Nat) (m : List Byte) (hw : w = 32 ∨ w = 64) :
    (padded w m).length = blocksFor w m.length * blockBytes w := by
  have h := padding_fits w m.length hw
  simp only [padded, List.length_append, List.length_cons, List.length_replicate, beBytes_length]
  simp only [zeroFill]
  omega

/-- The last bytes are the length field. -/
theorem padded_drop (w : Nat) (m : List Byte) (hw : w = 32 ∨ w = 64) :
    (padded w m).drop (blocksFor w m.length * blockBytes w - lengthBytes w) =
      beBytes (lengthBytes w) (8 * m.length) := by
  have h := padding_fits w m.length hw
  have e : padded w m = (m ++ 0x80#8 :: List.replicate (zeroFill w m.length) 0#8) ++
      beBytes (lengthBytes w) (8 * m.length) := by simp [padded]
  rw [e, List.drop_append_of_le_length, List.drop_of_length_le]
  · rfl
  all_goals simp [zeroFill]; omega

/-- Every word of every block is assembled from a whole word's bytes. -/
theorem block_slice_length (w : Nat) (m : List Byte) (i j : Nat) (hw : w = 32 ∨ w = 64) (hj : j < 16)
    (hi : i < blocksFor w m.length) :
    (((padded w m).drop (i * blockBytes w + j * wordBytes w)).take (wordBytes w)).length = wordBytes w := by
  have h1 := padded_length w m hw
  have h2 : (i + 1) * blockBytes w ≤ blocksFor w m.length * blockBytes w := Nat.mul_le_mul_right _ hi
  have h3 : (j + 1) * wordBytes w ≤ 16 * wordBytes w := Nat.mul_le_mul_right _ hj
  have h4 : blockBytes w = 16 * wordBytes w := rfl
  have e1 : (i + 1) * blockBytes w = i * blockBytes w + blockBytes w := by ring
  have e2 : (j + 1) * wordBytes w = j * wordBytes w + wordBytes w := by ring
  simp only [List.length_take, List.length_drop, h1]
  omega

/-- The number of a block's word. -/
theorem parseBlock_toNat (w : Nat) (m : List Byte) (i j : Nat) (hw : w = 32 ∨ w = 64) (hj : j < 16)
    (hi : i < blocksFor w m.length) :
    ((parseBlock w (padded w m) i)[j]).toNat =
      fromBE (((padded w m).drop (i * blockBytes w + j * wordBytes w)).take (wordBytes w)) := by
  simp only [parseBlock, Vector.getElem_ofFn, blockWord, BitVec.toNat_ofNat]
  apply Nat.mod_eq_of_lt
  refine lt_of_lt_of_le (fromBE_lt _) ?_
  rw [block_slice_length w m i j hw hj hi]
  rcases hw with rfl | rfl <;> exact Nat.le_refl _

/-! ### The serialised hash (R174) -/

theorem serialize_length {w : Nat} (H : Vector (BitVec w) 8) : (serialize H).length = 8 * wordBytes w := by
  simp [serialize, List.length_flatMap]; omega

theorem flatMap_getElem? {w b : Nat} (f : BitVec w → List Byte) (hf : ∀ x, (f x).length = b) (l : List (BitVec w))
    (k r : Nat) (hr : r < b) : (l.flatMap f)[b * k + r]? = (l[k]?).bind fun x => (f x)[r]? := by
  induction l generalizing k with
  | nil => simp
  | cons x l ih =>
    rw [List.flatMap_cons]
    cases k with
    | zero => rw [List.getElem?_append_left (by rw [hf]; omega)]; simp
    | succ k =>
      rw [List.getElem?_append_right (by rw [hf, Nat.mul_add]; omega), hf,
        show b * (k + 1) + r - b = b * k + r by rw [Nat.mul_add]; omega, ih]
      simp

/-- Byte `r` of word `k`. -/
theorem serialize_getElem? {w : Nat} (H : Vector (BitVec w) 8) (k r : Nat) (hk : k < 8) (hr : r < wordBytes w) :
    (serialize H)[wordBytes w * k + r]? = some (beByte (wordBytes w) H[k].toNat r) := by
  rw [serialize, flatMap_getElem? (b := wordBytes w) _ (by intro x; simp) _ _ _ hr]
  simp [hk, beBytes_getElem? _ _ _ hr]

end Sys2Proof.Machine
end

