-- ==== Sys2Proof/Laws/PerInstr.lean ====
section
/-! SUPPORT. Per instruction: the encoded word of every instruction matches its row of spec/opcode_table.json, in the
row's own format, and carries its operands where the row has them. -/

namespace Sys2Proof.Laws.TableRow

open Sys2Proof

/-- A REQ that matches a row: its bits under `mask` are `match_`. -/
def reqMatches (op : HostOp) (mask match_ : HWord) : Prop := ∃ req data, op = .bus req data ∧ req &&& mask = match_

/-- The row's match and mask words, its INDEX in bits 27:0 where the row leaves them free, and its DATA. -/
def Statement : Instr → Prop
  | .wrCmd data => reqMatches (encode (.wrCmd data)) 0xFFFFFFFF#32 0x80000000#32 ∧ encode (.wrCmd data) = .bus 0x80000000#32 data
  | .hashSha256 => encode .hashSha256 = .cmd 0x00000001#32
  | .hashSha384 => encode .hashSha384 = .cmd 0x00000011#32
  | .hashSha512 => encode .hashSha512 = .cmd 0x00000021#32
  | .rdStatus => reqMatches (encode .rdStatus) 0xFFFFFFFF#32 0x00000001#32
  | .wrLen data => reqMatches (encode (.wrLen data)) 0xFFFFFFFF#32 0x80000002#32 ∧ encode (.wrLen data) = .bus 0x80000002#32 data
  | .rdLen => reqMatches (encode .rdLen) 0xFFFFFFFF#32 0x00000002#32
  | .wrMsg idx data =>
    reqMatches (encode (.wrMsg idx data)) 0xF0000000#32 0x90000000#32 ∧
      encode (.wrMsg idx data) = .bus (0x90000000#32 ||| idx.setWidth 32) data
  | .rdMsg idx =>
    reqMatches (encode (.rdMsg idx)) 0xF0000000#32 0x10000000#32 ∧
      encode (.rdMsg idx) = .bus (0x10000000#32 ||| idx.setWidth 32) 0
  | .rdDig idx =>
    reqMatches (encode (.rdDig idx)) 0xF0000000#32 0x20000000#32 ∧
      encode (.rdDig idx) = .bus (0x20000000#32 ||| idx.setWidth 32) 0
  | .reset => encode .reset = .reset

/-- A request assembled from its fields, under the mask of its first four bits and as a disjunction. -/
theorem mkReq_mask (dir : Bool) (space : BitVec 3) (idx : Index) :
    mkReq dir space idx &&& 0xF0000000#32 = mkReq dir space 0#28 := by
  apply BitVec.eq_of_getLsbD_eq
  intro i hi
  simp only [mkReq, BitVec.getLsbD_and, BitVec.getLsbD_append, BitVec.getLsbD_zero]
  by_cases h : i < 28
  · have hm : (0xF0000000#32).getLsbD i = false := by
      revert h; revert i; decide
    simp [h, hm]
  · have hm : (0xF0000000#32).getLsbD i = true := by
      have key : ∀ i, i < 32 → ¬ i < 28 → (0xF0000000#32).getLsbD i = true := by decide
      exact key i hi h
    simp [h, hm]

theorem mkReq_or (dir : Bool) (space : BitVec 3) (idx : Index) :
    mkReq dir space idx = mkReq dir space 0#28 ||| idx.setWidth 32 := by
  apply BitVec.eq_of_getLsbD_eq
  intro i hi
  simp only [mkReq, BitVec.getLsbD_or, BitVec.getLsbD_append, BitVec.getLsbD_zero, BitVec.getLsbD_setWidth]
  by_cases h : i < 28
  · simp [h, hi]
  · simp [h, BitVec.getLsbD_of_ge idx i (by omega)]

theorem wrCmd (data : HWord) : Statement (.wrCmd data) := ⟨⟨_, _, rfl, rfl⟩, rfl⟩
theorem hashSha256 : Statement .hashSha256 := rfl
theorem hashSha384 : Statement .hashSha384 := rfl
theorem hashSha512 : Statement .hashSha512 := rfl
theorem rdStatus : Statement .rdStatus := ⟨_, _, rfl, rfl⟩
theorem wrLen (data : HWord) : Statement (.wrLen data) := ⟨⟨_, _, rfl, rfl⟩, rfl⟩
theorem rdLen : Statement .rdLen := ⟨_, _, rfl, rfl⟩
theorem wrMsg (idx : Index) (data : HWord) : Statement (.wrMsg idx data) :=
  ⟨⟨_, _, rfl, mkReq_mask true spaceMsg idx⟩, congrArg (HostOp.bus · data) (mkReq_or true spaceMsg idx)⟩
theorem rdMsg (idx : Index) : Statement (.rdMsg idx) :=
  ⟨⟨_, _, rfl, mkReq_mask false spaceMsg idx⟩, congrArg (HostOp.bus · 0) (mkReq_or false spaceMsg idx)⟩
theorem rdDig (idx : Index) : Statement (.rdDig idx) :=
  ⟨⟨_, _, rfl, mkReq_mask false spaceDig idx⟩, congrArg (HostOp.bus · 0) (mkReq_or false spaceDig idx)⟩
theorem reset : Statement .reset := rfl

end Sys2Proof.Laws.TableRow
end

