-- ==== Sys2Proof/Laws/Progress.lean ====
section
/-! SUPPORT. What each part of a job answers in a state that `State.JobAt` describes: MD_LOAD, a round, the chaining
step and DIGEST each have a value there, and the state they answer is described again. -/

namespace Sys2Proof.Machine

/-! ### The datapath that a loaded block pins down -/

/-- The datapath of a core of kind `k` in block `i` of the padded message `p`, after `t` rounds. -/
def Engine.within (k : CoreKind) (alg : Alg) (p : List Byte) (i t : Nat) : Engine :=
  match k with
  | .sha256Core =>
    let W := schedule config32 (parseBlock 32 p i)
    let H := compressBlocks config32 iv256 p i
    .w32 ⟨some H, some (roundsFrom config32 W (loadWork H) t), some W, some (parseBlock 32 p i)⟩
  | .sha512Core =>
    let W := schedule config64 (parseBlock 64 p i)
    let H := compressBlocks config64 (if alg = .sha384 then iv384 else iv512) p i
    .w64 ⟨some H, some (roundsFrom config64 W (loadWork H) t), some W, some (parseBlock 64 p i)⟩

theorem Engine.within_kind {k : CoreKind} {alg : Alg} {p : List Byte} {i t : Nat} :
    (Engine.within k alg p i t).kind = k := by
  cases k <;> rfl

theorem Engine.rounds_eq (g : Engine) :
    g.rounds = match g.kind with | .sha256Core => 64 | .sha512Core => 80 := by
  cases g <;> rfl

variable {alg : Alg} {p : List Byte} {i t : Nat} {l : Bool} {g : Engine}

theorem Engine.AtBlock.accepted (h : g.AtBlock alg p i t l) : accepts g.kind alg = true := by
  cases g with
  | w32 d => obtain ⟨rfl, -⟩ := h; rfl
  | w64 d => rcases h with ⟨rfl, -⟩ | ⟨rfl, -⟩ <;> rfl

/-- MD_LOAD answers the datapath at round 0 of the block. -/
theorem Engine.AtBlock.load (h : g.AtBlock alg p i t l) : g.load p i = some (Engine.within g.kind alg p i 0) := by
  cases g with
  | w32 d =>
    obtain ⟨rfl, hH, -⟩ := h
    simp [Engine.load, Datapath.load, hH, Engine.within, Engine.kind, roundsFrom]
  | w64 d =>
    rcases h with ⟨rfl, hH, -⟩ | ⟨rfl, hH, -⟩ <;>
      simp [Engine.load, Datapath.load, hH, Engine.within, Engine.kind, roundsFrom]

/-- A loaded block pins the whole datapath down. -/
theorem Engine.AtBlock.eq_within (h : g.AtBlock alg p i t true) : g = Engine.within g.kind alg p i t := by
  cases g with
  | w32 d =>
    obtain ⟨rfl, hH, hb⟩ := h
    obtain ⟨h1, h2, h3⟩ := hb rfl
    obtain ⟨d1, d2, d3, d4⟩ := d
    simp only at hH h1 h2 h3
    subst hH h1 h2 h3
    rfl
  | w64 d =>
    rcases h with ⟨rfl, hH, hb⟩ | ⟨rfl, hH, hb⟩ <;>
    · obtain ⟨h1, h2, h3⟩ := hb rfl
      obtain ⟨d1, d2, d3, d4⟩ := d
      simp only at hH h1 h2 h3
      subst hH h1 h2 h3
      rfl

theorem Engine.AtBlock.within (h : g.AtBlock alg p i t l) (t' : Nat) :
    (Engine.within g.kind alg p i t').AtBlock alg p i t' true := by
  cases g with
  | w32 d => obtain ⟨rfl, -, -⟩ := h; exact ⟨rfl, rfl, fun _ => ⟨rfl, rfl, rfl⟩⟩
  | w64 d =>
    rcases h with ⟨rfl, -⟩ | ⟨rfl, -⟩
    · exact .inl ⟨rfl, rfl, fun _ => ⟨rfl, rfl, rfl⟩⟩
    · exact .inr ⟨rfl, rfl, fun _ => ⟨rfl, rfl, rfl⟩⟩

theorem Engine.within_round {k : CoreKind} :
    (Engine.within k alg p i t).round t = some (Engine.within k alg p i (t + 1)) := by
  cases k <;> rfl

/-- The chaining after the last round answers the datapath before the next block. -/
theorem Engine.within_chain {k : CoreKind} (hk : accepts k alg = true) :
    ∃ g, (Engine.within k alg p i (match k with | .sha256Core => 64 | .sha512Core => 80)).chain = some g ∧
      g.kind = k ∧ ∀ t, g.AtBlock alg p (i + 1) t false := by
  cases k with
  | sha256Core =>
    cases alg <;> cases hk
    exact ⟨_, rfl, rfl, fun t => ⟨rfl, rfl, by simp⟩⟩
  | sha512Core =>
    cases alg <;> cases hk
    · exact ⟨_, rfl, rfl, fun t => .inl ⟨rfl, rfl, by simp⟩⟩
    · exact ⟨_, rfl, rfl, fun t => .inr ⟨rfl, rfl, by simp⟩⟩

/-- A datapath depends on its kind for its width. -/
theorem Engine.within_width : (Engine.within g.kind alg p i t).width = g.width := Engine.width_of_kind Engine.within_kind

theorem Engine.within_rounds : (Engine.within g.kind alg p i t).rounds = g.rounds :=
  Engine.rounds_of_kind Engine.within_kind

/-! ### The state in the midst of a block -/

/-- `s` with block `i` of the message `m` loaded and `t` of its rounds done. -/
def State.within (s : State) (m : List Byte) (i t : Nat) : State :=
  { s with engine := Engine.within s.kind s.jalg (padded s.engine.width m) i t, round := some t, loaded := true }

variable {s : State} {m : List Byte} {n t₀ : Nat}

/-- MD_LOAD. -/
theorem State.JobAt.mdLoad (h : s.JobAt m i n t) : s.mdLoad = some (s.within m i 0) := by
  unfold State.mdLoad
  rw [h.message, h.index]
  simp only [h.data.load]
  rfl

theorem State.JobAt.within (h : s.JobAt m i n t₀) (hq : s.seq = .run) (ht : t ≤ s.engine.rounds) :
    (s.within m i t).JobAt m i n t where
  message := h.message
  fits := h.fits
  index := h.index
  count := h.count
  roundIdx := rfl
  blocks := by change n = blocksFor (Engine.within s.engine.kind _ _ _ _).width _; rw [Engine.within_width]; exact h.blocks
  roundLe := by change t ≤ (Engine.within s.engine.kind _ _ _ _).rounds; rw [Engine.within_rounds]; exact ht
  running := fun _ => h.running hq
  leaving := fun h' => by have h'' : s.seq = .out := h'; rw [hq] at h''; cases h''
  data := by
    change (Engine.within s.engine.kind _ _ _ _).AtBlock _ (padded (Engine.within s.engine.kind _ _ _ _).width m) _ _ _
    rw [Engine.within_width]
    exact h.data.within t

/-- A state in the midst of a loaded block is the one that the message, the block and the round give. -/
theorem State.JobAt.eq_within (h : s.JobAt m i n t) (hl : s.loaded = true) : s = s.within m i t := by
  have hd := h.data
  rw [hl] at hd
  have key : ∀ g, s.engine = g → s = { s with engine := g, round := some t, loaded := true } := by
    rintro g rfl
    rw [← h.roundIdx, ← hl]
  exact key _ hd.eq_within

/-- One round. -/
theorem State.within_mdRound (s : State) (m : List Byte) (i t : Nat) :
    (s.within m i t).mdRound = some (s.within m i (t + 1)) := by
  unfold State.mdRound
  simp only [State.within, Engine.within_round]
  rfl

/-- `k` rounds. -/
theorem State.within_mdRounds (s : State) (m : List Byte) (i t k : Nat) :
    State.mdRounds k (s.within m i t) = some (s.within m i (t + k)) := by
  induction k generalizing t with
  | zero => rfl
  | succ k ih =>
    rw [State.mdRounds, State.within_mdRound, Option.bind_some, ih]
    congr 2; omega

/-- The chaining step after the last round. -/
theorem State.JobAt.mdChain (h : s.JobAt m i n t) (hq : s.seq = .run) :
    ∃ u, (s.within m i s.engine.rounds).mdChain = some u ∧ u.JobAt m (i + 1) n s.engine.rounds ∧ u.loaded = false ∧
      u.seq = (if i + 1 < n then .run else .out) ∧ u.engine.rounds = s.engine.rounds := by
  obtain ⟨g, hg, hk, ha⟩ :=
    Engine.within_chain (k := s.kind) (p := padded s.engine.width m) (i := i) h.data.accepted
  have hg' : (s.within m i s.engine.rounds).engine.chain = some g := by rw [Engine.rounds_eq s.engine]; exact hg
  have hw : g.width = s.engine.width := Engine.width_of_kind hk
  have hr : g.rounds = s.engine.rounds := Engine.rounds_of_kind hk
  have hlt := h.running hq
  refine ⟨(s.within m i s.engine.rounds).blockChained g (i + 1) (if i + 1 < n then .run else .out), ?_, ?_, rfl, rfl,
    hr⟩
  · unfold State.mdChain
    rw [show (s.within m i s.engine.rounds).blockIdx = some i from h.index,
      show (s.within m i s.engine.rounds).blockCount = some n from h.count]
    simp only [hg']
    rfl
  · refine ⟨h.message, h.fits, rfl, h.count, rfl, ?_, ?_, ?_, ?_, ?_⟩
    · change n = blocksFor g.width _; rw [hw]; exact h.blocks
    · change _ ≤ g.rounds; rw [hr]
    · intro hx
      have hx' : (if i + 1 < n then Seq.run else Seq.out) = .run := hx
      by_contra hc
      rw [if_neg hc] at hx'; cases hx'
    · intro hx
      have hx' : (if i + 1 < n then Seq.run else Seq.out) = .out := hx
      refine ⟨?_, rfl⟩
      by_contra hc
      rw [if_pos (by omega)] at hx'; cases hx'
    · change g.AtBlock _ (padded g.width m) _ _ _
      rw [hw]
      exact ha _

/-- A whole block: MD_LOAD, the rounds and the chaining step. -/
theorem State.JobAt.block (h : s.JobAt m i n t) (hq : s.seq = .run) :
    ∃ u, (∀ k, State.mdBlocks (k + 1) s = State.mdBlocks k u) ∧ (s.within m i s.engine.rounds).mdChain = some u ∧
      u.JobAt m (i + 1) n s.engine.rounds ∧ u.loaded = false ∧ u.seq = (if i + 1 < n then .run else .out) ∧
      u.engine.rounds = s.engine.rounds := by
  obtain ⟨u, hu, h2⟩ := h.mdChain hq
  refine ⟨u, fun k => ?_, hu, h2⟩
  have hr : (s.within m i 0).engine.rounds = s.engine.rounds := Engine.within_rounds
  rw [State.mdBlocks, h.mdLoad, Option.bind_some, State.mdBlock, hr, State.within_mdRounds, Nat.zero_add,
    Option.bind_some, hu, Option.bind_some]

/-- DIGEST after the last block: the digest of the message. -/
theorem State.JobAt.digest (h : s.JobAt m n n t) : s.digest = some (s.jobDone (s.dig.writeAll 0 (sha s.jalg m))) := by
  have hd := h.data
  have hb := h.blocks
  unfold State.digest
  cases hg : s.engine with
  | w32 d =>
    rw [hg] at hd hb
    obtain ⟨ha, hH, -⟩ := hd
    subst hb
    simp only [Engine.serialize, hH, Option.map_some, ha]
    rfl
  | w64 d =>
    rw [hg] at hd hb
    subst hb
    rcases hd with ⟨ha, hH, -⟩ | ⟨ha, hH, -⟩ <;>
    · simp only [Engine.serialize, hH, Option.map_some, ha]
      rfl

/-! ### Micro-steps -/

theorem State.JobAt.micro_load (h : s.JobAt m i n t) (hq : s.seq = .run) (hl : s.loaded = false) :
    s.coreMicro = .next (s.within m i 0) := by
  unfold State.coreMicro
  rw [hq, h.index, h.count, h.roundIdx]
  simp [h.running hq, hl, h.mdLoad, Result.ofOption]

theorem State.JobAt.micro_round (h : s.JobAt m i n t₀) (hq : s.seq = .run) (ht : t < s.engine.rounds) :
    (s.within m i t).coreMicro = .next (s.within m i (t + 1)) := by
  have hr : (s.within m i t).engine.rounds = s.engine.rounds := Engine.within_rounds
  unfold State.coreMicro
  rw [show (s.within m i t).seq = .run from hq, show (s.within m i t).blockIdx = some i from h.index,
    show (s.within m i t).blockCount = some n from h.count, show (s.within m i t).round = some t from rfl,
    State.within_mdRound]
  simp [h.running hq, hr, ht, show (s.within m i t).loaded = true from rfl, Result.ofOption]

/-- The states that micro-steps pass through, one after another. -/
theorem State.coreMicros_add {j : Nat} {u : State} (h : s.coreMicros j = .next u) (k : Nat) :
    s.coreMicros (j + k) = u.coreMicros k := by
  induction j generalizing s with
  | zero => cases h; rw [Nat.zero_add]
  | succ j ih =>
    rw [show j + 1 + k = (j + k) + 1 by omega, State.coreMicros]
    rw [State.coreMicros] at h
    cases hm : s.coreMicro with
    | next v => rw [hm] at h; exact ih h
    | fault => rw [hm] at h; cases h
    | refused => rw [hm] at h; cases h

/-! ### The start of a job -/

/-- Acceptance of a command with a written message begins a job on it. -/
theorem State.startJob_job (acc : accepts s.kind alg = true) (fits : s.len.toNat ≤ s.msgCap.val)
    (hm : s.message = some m) (init : s.engine.init alg = some g) :
    (s.startJob alg g (blocksFor (algWidth alg) s.len.toNat)).JobAt m 0 (blocksFor (algWidth alg) s.len.toNat) 0 := by
  have hl : m.length = s.len.toNat := Memory.readAll_length hm
  have hk : g.kind = s.engine.kind := Engine.init_kind init
  have hw : algWidth alg = g.width := by
    rw [Engine.width_of_accepts (g := s.engine) acc, Engine.width_of_kind hk]
  refine ⟨hm, by rw [hl]; exact fits, rfl, rfl, rfl, ?_, Nat.zero_le _, fun _ => blocksFor_pos _ _, ?_, ?_⟩
  · change _ = blocksFor g.width m.length
    rw [hl, hw]
  · intro h; cases h
  · change g.AtBlock alg (padded g.width m) 0 0 false
    cases hs : s.engine <;> rw [hs] at init <;> cases alg <;>
      simp only [Engine.init, Option.some.injEq, reduceCtorEq] at init <;> subst init
    · exact ⟨rfl, rfl, by simp⟩
    · exact .inl ⟨rfl, rfl, by simp⟩
    · exact .inr ⟨rfl, rfl, by simp⟩

end Sys2Proof.Machine
end

