-- ==== Sys2Proof/Tests/Slice0.lean ====
section
/-! SUPPORT. Tests. Expected values are those of spec/95_test_vectors.md (the row is named) or are written from the
encoding tables of spec/30_encoding.md. Then, for every statement that has hypotheses, a state and operands that meet
them. -/

namespace Sys2Proof.Machine.Tests

open Sys2Proof Sys2Proof.Machine

/-! ## Ill-formed instructions are refused -/

theorem test_wellformed_wrMsg : WellFormed 256 (.wrMsg 256#28 0) = false ∧ WellFormed 256 (.wrMsg 255#28 0) = true := by
  decide
theorem test_wellformed_rdMsg : WellFormed 256 (.rdMsg 256#28) = false ∧ WellFormed 256 (.rdMsg 255#28) = true := by
  decide
theorem test_wellformed_rdDig : WellFormed 256 (.rdDig 64#28) = false ∧ WellFormed 256 (.rdDig 63#28) = true := by
  decide

/-! ## Decoding: words written bit by bit from R80, R81 and R84 (D SSS INDEX; RSV ALG OP) -/

theorem test_decode_wrCmd : decode 256 (.bus 0b1000_0000000000000000000000000000#32 0x31#32) = .ok (.wrCmd 0x31#32) := by
  decide
theorem test_decode_rdStatus : decode 256 (.bus 0b0000_0000000000000000000000000001#32 0) = .ok .rdStatus := by decide
theorem test_decode_wrLen : decode 256 (.bus 0b1000_0000000000000000000000000010#32 5) = .ok (.wrLen 5) := by decide
theorem test_decode_rdLen : decode 256 (.bus 0b0000_0000000000000000000000000010#32 0) = .ok .rdLen := by decide
theorem test_decode_wrMsg : decode 256 (.bus 0b1001_0000000000000000000000000101#32 0x61) = .ok (.wrMsg 5#28 0x61) := by
  decide
theorem test_decode_rdMsg : decode 256 (.bus 0b0001_0000000000000000000011111111#32 0) = .ok (.rdMsg 255#28) := by decide
theorem test_decode_rdDig : decode 256 (.bus 0b0010_0000000000000000000000111111#32 0) = .ok (.rdDig 63#28) := by decide
theorem test_decode_hashSha256 : decode 256 (.cmd 0b00000000000000000000000000_00_0001#32) = .ok .hashSha256 := by decide
theorem test_decode_hashSha384 : decode 256 (.cmd 0b00000000000000000000000000_01_0001#32) = .ok .hashSha384 := by decide
theorem test_decode_hashSha512 : decode 256 (.cmd 0b00000000000000000000000000_10_0001#32) = .ok .hashSha512 := by decide
theorem test_decode_reset : decode 256 .reset = .ok .reset := by decide

/-- The rows of the opcode table, as the host numbers them; RD_STATUS and HASH.SHA256 share a word. -/
theorem test_decode_table_rows :
    [(32, 0x80000000), (32, 0x11), (32, 0x21), (32, 0x1), (32, 0x80000002), (32, 0x2), (32, 0x90000000), (32, 0x10000000),
      (32, 0x20000000), (8, 1), (8, 0)].map (fun p => decodeTableWord p.1 p.2) =
    [some (.wrCmd 0), some .hashSha384, some .hashSha512, some .rdStatus, some (.wrLen 0), some .rdLen,
      some (.wrMsg 0 0), some (.rdMsg 0), some (.rdDig 0), some .reset, none] := by
  decide

/-! ## Units -/

/-- V2.1.1. -/
theorem test_rotr : rotr 0x12345678#32 8 = 0x78123456#32 ∧ rotr 0x0123456789ABCDEF#64 61 = 0x091A2B3C4D5E6F78#64 ∧
    shr 0xFFFFFFFF#32 10 = 0x003FFFFF#32 ∧ shr 0x8000000000000000#64 7 = 0x0100000000000000#64 := by decide

/-- V2.1.1. -/
theorem test_ch_maj : choose 0xF0F0F0F0#32 0xCCCCCCCC#32 0xAAAAAAAA#32 = 0xCACACACA#32 ∧
    majority 0xF0F0F0F0#32 0xCCCCCCCC#32 0xAAAAAAAA#32 = 0xE8E8E8E8#32 := by decide

/-- V2.2.1: the block counts on both sides of the thresholds. -/
theorem test_block_counts :
    [55, 56, 119, 120, 183, 184].map (blocksFor 32) = [1, 2, 2, 3, 3, 4] ∧
    [111, 112, 239, 240].map (blocksFor 64) = [1, 2, 2, 3] := by decide

/-- "abc" (V1.2). -/
def abc : List Byte := [0x61, 0x62, 0x63]

/-- V2.2.3. -/
theorem test_padded_abc :
    padded 32 abc = [0x61, 0x62, 0x63, 0x80] ++ List.replicate 59 0 ++ [0x18] ∧
    padded 64 abc = [0x61, 0x62, 0x63, 0x80] ++ List.replicate 123 0 ++ [0x18] := by decide +kernel

/-- V2.3.1 and V2.3.2: the first computed words of the schedules of "abc". -/
theorem test_schedule_abc :
    ((messageScheduler32 (parseBlock 32 (padded 32 abc) 0)).toList.drop 16).take 4 =
      [0x61626380#32, 0x000F0000#32, 0x7DA86405#32, 0x600003C6#32] ∧
    ((messageScheduler64 (parseBlock 64 (padded 64 abc) 0)).toList.drop 16).take 4 =
      [0x6162638000000000#64, 0x00030000000000C0#64, 0x0A9699A24C700003#64, 0x00000C0060000603#64] := by
  decide +kernel

/-- V2.3.3: the last word of the schedule of an all-ones block. -/
theorem test_schedule_ones :
    (messageScheduler32 (Vector.replicate 16 0xFFFFFFFF#32))[63] = 0x4BCEAF09#32 ∧
    (messageScheduler64 (Vector.replicate 16 0xFFFFFFFFFFFFFFFF#64))[79] = 0x838168CE14E43C5A#64 := by
  decide +kernel

/-- V2.4.5: one round from IV256 and one from IV512, with K = W = 0. -/
theorem test_round :
    compressionRound32 (loadWork iv256) 0 0 = ⟨0xB97E58B5, 0x6A09E667, 0xBB67AE85, 0x3C6EF372, 0x563DB30A, 0x510E527F,
      0x9B05688C, 0x1F83D9AB⟩ ∧
    compressionRound64 (loadWork iv512) 0 0 = ⟨0x52C33B9FE5D42FD3, 0x6A09E667F3BCC908, 0xBB67AE8584CAA73B,
      0x3C6EF372FE94F82B, 0xB4DE6F1BA38C716F, 0x510E527FADE682D1, 0x9B05688C2B3E6C1F, 0x1F83D9ABFB41BD6B⟩ := by
  decide +kernel

/-- V2.4.1 and V2.4.2: the first two rounds of "abc" at SHA-256, and the first at SHA-512. -/
theorem test_rounds_abc :
    roundsFrom config32 (messageScheduler32 (parseBlock 32 (padded 32 abc) 0)) (loadWork iv256) 2 =
      ⟨0x5A6AD9AD, 0x5D6AEBCD, 0x6A09E667, 0xBB67AE85, 0x78CE7989, 0xFA2A4622, 0x510E527F, 0x9B05688C⟩ ∧
    roundsFrom config64 (messageScheduler64 (parseBlock 64 (padded 64 abc) 0)) (loadWork iv512) 1 =
      ⟨0xF6AFCEB8BCFCDDF5, 0x6A09E667F3BCC908, 0xBB67AE8584CAA73B, 0x3C6EF372FE94F82B, 0x58CB02347AB51F91,
        0x510E527FADE682D1, 0x9B05688C2B3E6C1F, 0x1F83D9ABFB41BD6B⟩ := by
  decide +kernel

/-! ## Small states -/

/-- A core of kind `k` after reset, with 256 message cells, before the turns `l`. -/
def fresh (k : CoreKind) (l : List Event) : State := .resetOf k ⟨256, by decide⟩ l []

/-- The same with "abc" loaded (R89). -/
def loadedAbc (k : CoreKind) (l : List Event) : State :=
  { fresh k l with len := 3, msg := [(0, 0x61), (1, 0x62), (2, 0x63)] }

/-- A job on "abc" just accepted (R170, R200). -/
def runningAbc (alg : Alg) (l : List Event) : State :=
  match alg with
  | .sha256 => (loadedAbc .sha256Core l).startJob .sha256 (.w32 (Datapath.unset.init iv256)) 1
  | .sha384 => (loadedAbc .sha512Core l).startJob .sha384 (.w64 (Datapath.unset.init iv384)) 1
  | .sha512 => (loadedAbc .sha512Core l).startJob .sha512 (.w64 (Datapath.unset.init iv512)) 1

/-- A core with a finished digest of `n` bytes 0xAB in DIG. -/
def doneAbc (alg : Alg) (n : Nat) : State :=
  { loadedAbc (if alg = .sha256 then .sha256Core else .sha512Core) [] with
    status := { busy := false, done := true, lalg := alg }
    jalg := alg
    dig := Memory.writeAll [] 0 (List.replicate n 0xAB)
    blockCount := some 1 }

/-- The state a result answers. -/
def next? : Result → Option State
  | .next s => some s
  | _ => none

/-- The number of the fault a result marks (R301). -/
def code? (r : Result) : Option Nat := (next? r).bind fun t => t.fault.map FaultMark.code

/-! ## Host operations (rows H of section 2.6) -/

theorem test_accept :
    next? (exec .hashSha256 (loadedAbc .sha256Core [])) = some (runningAbc .sha256 []) ∧
    next? (exec .hashSha384 (loadedAbc .sha512Core [])) = some (runningAbc .sha384 []) ∧
    next? (exec .hashSha512 (loadedAbc .sha512Core [])) = some (runningAbc .sha512 []) := by
  decide +kernel

/-- H1, H2, H4, H6: reads of STATUS and LEN. -/
theorem test_reads :
    [next? (exec .rdStatus (fresh .sha256Core [])), next? (exec .rdLen (fresh .sha256Core [])),
      next? (exec .rdStatus (runningAbc .sha256 [])), next? (exec .rdStatus (runningAbc .sha384 [])),
      next? (exec .rdStatus (doneAbc .sha512 64)), next? (exec .rdLen (runningAbc .sha256 [])),
      next? (exec (.rdMsg 1) (runningAbc .sha256 [])), next? (exec (.rdDig 47) (doneAbc .sha384 48))].map
        (fun o => o.map fun t => (t.reads, t.fault)) =
    [some ([0], none), some ([0], none), some ([1], none), some ([0x11], none), some ([0x22], none), some ([3], none),
      some ([0x62], none), some ([0xAB], none)] := by
  decide +kernel

/-- H10, H12, H14 to H24, H26 to H30, H34, H37, H39 to H42: the faults and their priority. -/
theorem test_faults :
    [code? (exec (.rdDig 32) (doneAbc .sha256 32)), code? (exec (.rdDig 48) (doneAbc .sha384 48)),
      code? (exec (.rdDig 0) (fresh .sha256Core [])), code? (exec (.rdDig 0) (runningAbc .sha256 [])),
      code? (exec (.wrCmd 0) (fresh .sha256Core [])), code? (exec (.wrCmd 2) (fresh .sha256Core [])),
      code? (exec (.wrCmd 0x41) (fresh .sha256Core [])), code? (exec (.wrCmd 0x31) (fresh .sha512Core [])),
      code? (exec (.wrCmd 0x11) (fresh .sha256Core [])), code? (exec .hashSha512 (fresh .sha256Core [])),
      code? (exec .hashSha256 (fresh .sha512Core [])), code? (exec (.wrCmd 1) (runningAbc .sha256 [])),
      code? (exec (.wrCmd 0x31) (runningAbc .sha256 [])), code? (exec (.wrLen 4) (runningAbc .sha256 [])),
      code? (exec (.wrMsg 0 0x61) (runningAbc .sha256 [])), code? (exec (.wrMsg 0 0x100) (runningAbc .sha256 [])),
      code? (exec (.wrMsg 5 0x100) (fresh .sha256Core [])), code? (exec (.rdMsg 0) (fresh .sha256Core [])),
      code? (exec .hashSha256 { fresh .sha256Core [] with len := 257 }),
      code? (exec .hashSha256 { fresh .sha256Core [] with len := 3 }),
      code? (exec (.wrCmd 0x31) { fresh .sha256Core [] with len := 3 })] =
    [9, 9, 8, 8, 1, 1, 1, 2, 3, 3, 3, 4, 2, 5, 5, 11, 11, 7, 6, 7, 2].map some := by
  decide +kernel

/-- H40: the lowest unwritten index is recorded. -/
theorem test_unwritten_index :
    (next? (exec .hashSha256 { fresh .sha256Core [] with len := 3, msg := [(0, 0x61), (2, 0x63)] })).map (·.fault) =
      some (some (.unwrittenMessageByte .wrCmd 1)) := by
  decide +kernel

/-- H3, H25, H35, H38, H43, H52: writes and RESET without a fault. -/
theorem test_writes :
    [next? (exec .hashSha256 (loadedAbc .sha256Core [])), next? (exec .hashSha384 (fresh .sha512Core [])),
      next? (exec (.wrMsg 255 0xFF) (fresh .sha256Core [])), next? (exec (.wrLen 0xFFFFFFFF) (fresh .sha256Core [])),
      next? (exec (.wrCmd 1) (fresh .sha256Core [])), next? (exec .reset (runningAbc .sha256 []))].map
        (fun o => o.map fun t => (t.status.word, t.len, t.fault, t.msg.read 255)) =
    [some (1, 3, none, none), some (0x11, 0, none, none), some (0, 0, none, some 0xFF), some (0, 0xFFFFFFFF, none, none),
      some (1, 0, none, none), some (0, 0, none, none)] := by
  decide +kernel

/-- H36, H44 to H51: illegal accesses, through a step. -/
theorem test_illegal :
    [0x90000100#32, 0x00000000#32, 0x80000001#32, 0x00000003#32, 0xA0000000#32, 0x20000040#32, 0x30000000#32,
      0x70000000#32, 0xB0000000#32].map (fun req => code? (step (fresh .sha256Core [.host (.bus req 0)]))) =
    List.replicate 9 (some 10) := by
  decide +kernel

/-! ## Whole jobs, one CoreRun each (V1.2, V1.5, V1.4: the leading bytes; V2.5.5) -/

theorem test_corerun_sha256 :
    (next? (runningAbc .sha256 []).coreRun).map (fun t => ((t.dig.readAll 0 32).map fromBE, t.status.word, t.blockIdx)) =
      some (some 0xba7816bf8f01cfea414140de5dae2223b00361a396177a9cb410ff61f20015ad, 2, some 1) := by
  decide +kernel

theorem test_corerun_sha384 :
    (next? (runningAbc .sha384 []).coreRun).map (fun t => ((t.dig.readAll 0 48).map fromBE, t.dig.read 48)) =
      some (some 0xcb00753f45a35e8bb5a03d699ac65007272c32ab0eded1631a8b605a43ff5bed8086072ba1e7cc2358baeca134c825a7,
        none) := by
  decide +kernel

theorem test_corerun_sha512 :
    (next? (runningAbc .sha512 []).coreRun).map (fun t => ((t.dig.readAll 0 64).map fromBE)) =
      some (some 0xddaf35a193617abacc417349ae20413112e6fa4e89a97ea20a9eeee64b55d39a2192992a274fc1a836ba3c23a3feebbd454d4423643ce80e2a9ac94fa54ca49f) := by
  decide +kernel

/-- Two blocks: `a` repeated 56 times (V2.5.5). -/
theorem test_two_blocks :
    fromBE (sha .sha256 (List.replicate 56 0x61)) =
      0xb35439a4ac6f0948b6d6f9e3c6af0f5f590ce20f1bde7090ef7970686ec6738a := by
  decide +kernel

/-! ## Host scripts (R88, R89; program P1's lines) -/

theorem test_script_lines :
    parseLine "wr MSG[0], 0x61       ; REQ 0x90000000, DATA 0x00000061".toList = some (.wrMsg 0 0x61) ∧
    parseLine "load \"abc\"".toList = some (.load abc) ∧ parseLine "load x\"616263\"".toList = some (.load abc) ∧
    parseLine "rddig 32".toList = some (.rddig 32) ∧ parseLine "wr MSG[0], 0x100".toList = none := by
  decide +kernel

/-- After the closing quotation mark of a `load`: a comment, and other text. -/
theorem test_script_after_load :
    parseLine "load \"abc\"   ; the message".toList = some (.load abc) ∧ parseLine "load \"abc\" 3".toList = none ∧
    parseLine "load x\"616263\" ; raw".toList = some (.load abc) ∧ parseLine "load x\"616263\" 3".toList = none ∧
    parseLine "load \"abc\",".toList = none := by
  decide +kernel

/-- Lines as those of program P2: a comment alone, nothing, an operation, and an ill-formed one. -/
theorem test_script_blank_lines :
    parseScript ["   ; then wr LEN, 56".toList, "".toList, "wait                  ; REQ 0x00000001".toList] = some [.wait] ∧
    parseScript ["; a comment".toList, "rd CMD".toList] = none ∧ parseScript [", ,".toList] = none := by
  decide +kernel

theorem test_script_expand :
    (ScriptLine.load abc).expand 0 = [.bus 0x90000000 0x61, .bus 0x90000001 0x62, .bus 0x90000002 0x63,
      .bus 0x80000002 3] ∧
    (ScriptLine.rddig 2).expand 0 = [.bus 0x20000000 0, .bus 0x20000001 0] ∧
    ScriptLine.hashSha384.expand 0 = [.bus 0x80000000 0x11] := by
  decide

/-! ## Witnesses: for every statement with hypotheses, states and operands that meet them together, for each clause at
the ends of its range -/

/-! ### Encodings and the step -/

theorem test_witness_BusDecodeFollowsTable :
    ∃ (s : State) (rest : List Event), s.fault = none ∧ s.input = .host (.bus 0x90000100#32 7) :: rest ∧
      decode s.msgCap.val (.bus 0x90000100#32 7) = .error (.illegalAccess 0x90000100#32) :=
  ⟨fresh .sha256Core [.host (.bus 0x90000100#32 7)], [], by decide⟩

theorem test_witness_IllegalAccessesFault :
    [0x00000000#32, 0x80000001#32, 0x00000003#32, 0x8FFFFFFF#32, 0x10000100#32, 0x90000100#32, 0xA0000000#32,
      0x20000040#32, 0x30000000#32, 0xF0000000#32].all (fun req => decide (
      (let dir := req.toNat / 2 ^ 31; let space := req.toNat / 2 ^ 28 % 8; let idx := req.toNat % 2 ^ 28
       (dir = 0 ∧ space = 0 ∧ idx = 0) ∨ (dir = 1 ∧ space = 0 ∧ idx = 1) ∨ (space = 0 ∧ 3 ≤ idx) ∨
        (space = 1 ∧ (fresh .sha256Core []).msgCap.val ≤ idx) ∨ (space = 2 ∧ (dir = 1 ∨ 64 ≤ idx)) ∨ 3 ≤ space) ∧
      (fresh .sha256Core [.host (.bus req 0)]).fault = none ∧
      (fresh .sha256Core [.host (.bus req 0)]).input = .host (.bus req 0) :: [])) = true := by
  decide

theorem test_witness_DecodeOfEncode :
    ∀ i ∈ [Instr.wrCmd 0xFFFFFFFF, .hashSha256, .hashSha384, .hashSha512, .rdStatus, .wrLen 0xFFFFFFFF, .rdLen,
      .wrMsg 255 0xFFFFFFFF, .rdMsg 255, .rdDig 63, .reset], WellFormed 256 i = true := by
  decide

theorem test_witness_RequestsNameOperationsUniquely :
    decode 256 (.bus 0x900000FF#32 7) = .ok (.wrMsg 255 7) := by decide

theorem test_witness_StepRunsDecodedOperation :
    ∃ (s : State) (rest : List Event), s.fault = none ∧ s.input = .host (.cmd 0x11) :: rest ∧
      decode s.msgCap.val (.cmd 0x11) = .ok .hashSha384 :=
  ⟨loadedAbc .sha512Core [.host (.cmd 0x11), .coreRun], [.coreRun], by decide⟩

theorem test_witness_StepTakesCoreTurn :
    (∀ ev ∈ [Event.coreMicro, .coreRun], (runningAbc .sha256 [ev]).fault = none ∧ (runningAbc .sha256 [ev]).input = [ev]) ∧
    (runningAbc .sha384 []).fault = none ∧ (runningAbc .sha384 []).input = [] ∧ (runningAbc .sha384 []).seq ≠ .idle ∧
    (fresh .sha256Core []).fault = none ∧ (fresh .sha256Core []).input = [] ∧ (fresh .sha256Core []).seq = .idle ∧
    ∀ ev ∈ [Event.coreMicro, .coreRun], (fresh .sha256Core [ev]).fault = none ∧ (fresh .sha256Core [ev]).seq = .idle ∧
      (fresh .sha256Core [ev]).input = [ev] := by
  decide

theorem test_witness_PlacedWordRunsNext :
    (fresh .sha256Core []).fault = none ∧ tableOp 64 0x61900000FF = some (.bus 0x900000FF#32 0x61) ∧
      decode (fresh .sha256Core []).msgCap.val (.bus 0x900000FF#32 0x61) = .ok (.wrMsg 255 0x61) ∧
      tableOp 8 1 = some .reset ∧ decode (fresh .sha256Core []).msgCap.val .reset = .ok .reset := by
  decide

theorem test_witness_ModelFaultIsPermanent :
    (∃ t m, (fresh .sha256Core []).fault = none ∧ exec (.rdDig 0) (fresh .sha256Core []) = .next t ∧ t.fault = some m) ∧
    ((fresh .sha256Core []).withFault (.reservedCommand 0)).fault = some (.reservedCommand 0) :=
  ⟨⟨(fresh .sha256Core []).withFault (.digestNotReady 0x20000000#32), _, rfl, rfl, rfl⟩, rfl⟩

/-- Every fault code of an operation is raised by a well-formed one. -/
theorem test_witness_RaisedCodesFollowTable :
    [(Instr.wrCmd 0, fresh .sha256Core []), (.wrCmd 0x31, fresh .sha256Core []), (.hashSha512, fresh .sha256Core []),
      (.hashSha256, runningAbc .sha256 []), (.wrLen 0, runningAbc .sha256 []), (.wrMsg 255 0, runningAbc .sha256 []),
      (.hashSha256, { fresh .sha256Core [] with len := 257 }), (.hashSha256, { fresh .sha256Core [] with len := 1 }),
      (.rdMsg 255, fresh .sha256Core []), (.rdDig 63, fresh .sha256Core []), (.rdDig 63, doneAbc .sha256 32),
      (.wrMsg 255 256, fresh .sha256Core [])].map
        (fun p => (WellFormed p.2.msgCap.val p.1, p.2.fault, code? (exec p.1 p.2))) =
    [1, 2, 3, 4, 5, 5, 6, 7, 7, 8, 9, 11].map fun n => (true, none, some n) := by
  decide +kernel

/-- R313: an unwritten message byte names the operation that met it. -/
theorem test_fault_names_operation :
    ((next? (exec .hashSha256 { fresh .sha256Core [] with len := 1 })).bind fun t => t.fault.map FaultMark.op) =
      some .wrCmd ∧
    ((next? (exec (.rdMsg 0) (fresh .sha256Core []))).bind fun t => t.fault.map FaultMark.op) = some .rdMsg := by
  decide +kernel

/-! ### Host operations -/

theorem test_witness_ReadStatusReturnsStatus :
    (runningAbc .sha512 []).fault = none ∧ (doneAbc .sha384 48).fault = none ∧ (fresh .sha256Core []).fault = none := by
  decide

theorem test_witness_ReadLenReturnsLen : (runningAbc .sha256 []).fault = none := by decide

theorem test_witness_ReadMsgReturnsByte :
    ((fresh .sha256Core []).fault = none ∧ (255#28).toNat < (fresh .sha256Core []).msgCap.val ∧
      (fresh .sha256Core []).msg.read (255#28).toNat = none) ∧
    ((runningAbc .sha256 []).fault = none ∧ (2#28).toNat < (runningAbc .sha256 []).msgCap.val ∧
      (runningAbc .sha256 []).msg.read (2#28).toNat = some 0x63#8) := by
  decide

theorem test_witness_ReadDigestReturnsByte :
    ((runningAbc .sha256 []).fault = none ∧ (0#28).toNat < 64 ∧ (63#28).toNat < 64 ∧
      (runningAbc .sha256 []).status.done = false) ∧
    (∀ p ∈ [(doneAbc .sha256 32, 32#28), (doneAbc .sha384 48, 48#28), (doneAbc .sha384 64, 63#28)], p.1.fault = none ∧
      p.2.toNat < 64 ∧ p.1.status.done = true ∧ digestLen p.1.status.lalg ≤ p.2.toNat) ∧
    (∀ p ∈ [(doneAbc .sha256 32, 31#28), (doneAbc .sha384 48, 47#28), (doneAbc .sha512 64, 63#28)], p.1.fault = none ∧
      p.2.toNat < 64 ∧ p.1.status.done = true ∧ p.2.toNat < digestLen p.1.status.lalg ∧
      p.1.dig.read p.2.toNat = some 0xAB#8) ∧
    (Instr.wrLen 0 ∉ [.hashSha256, .hashSha384, .hashSha512, .reset] ∧
      (next? (exec (.wrLen 0) (doneAbc .sha256 32))).isSome = true) := by
  decide +kernel

theorem test_witness_WriteLenStoresAnyValue :
    ((fresh .sha256Core []).fault = none ∧ (fresh .sha256Core []).status.busy = false) ∧
    ((runningAbc .sha512 []).fault = none ∧ (runningAbc .sha512 []).status.busy = true) := by
  decide

/-- The clauses of WR_MSG: DATA 256 is above a byte, and 255 is one. -/
theorem test_witness_WriteMsgStoresOneByte :
    ((runningAbc .sha256 []).fault = none ∧ (255#28).toNat < (runningAbc .sha256 []).msgCap.val ∧ 256 ≤ (256#32).toNat) ∧
    ((255#32).toNat < 256 ∧ (runningAbc .sha256 []).status.busy = true) ∧
    ((loadedAbc .sha256Core []).fault = none ∧ (255#28).toNat < (loadedAbc .sha256Core []).msgCap.val ∧
      (loadedAbc .sha256Core []).status.busy = false) := by
  decide

theorem test_witness_WrittenMsgByteReadsBack :
    (loadedAbc .sha256Core []).fault = none ∧ (0#28).toNat < (loadedAbc .sha256Core []).msgCap.val ∧
      (255#32).toNat < 256 ∧ (loadedAbc .sha256Core []).status.busy = false := by
  decide

theorem test_witness_ReservedCommandsFault :
    (runningAbc .sha256 []).fault = none ∧ [0x00000000#32, 0x00000002#32, 0x00000041#32, 0xFFFFFFFF#32].all (fun data =>
      decide (data ∉ [0x00000001#32, 0x00000011#32, 0x00000021#32, 0x00000031#32])) = true := by
  decide

theorem test_witness_UnacceptedSelectorsFault :
    (fresh .sha256Core []).fault = none ∧ (fresh .sha256Core []).kind = .sha256Core ∧
      (runningAbc .sha512 []).fault = none ∧ (runningAbc .sha512 []).kind = .sha512Core := by
  decide

theorem test_witness_WritesWhileBusyFault :
    ∀ p ∈ [(runningAbc .sha256 [], CoreKind.sha256Core), (runningAbc .sha384 [], .sha512Core)],
      p.1.fault = none ∧ p.1.status.busy = true ∧ p.1.kind = p.2 ∧ (255#28).toNat < p.1.msgCap.val ∧
        (255#32).toNat < 256 := by
  decide

/-- The HASH commands in both encodings with the algorithm and a kind of core that accepts it. -/
def hashForms : List (Instr × Alg × CoreKind) :=
  [(.hashSha256, .sha256, .sha256Core), (.wrCmd 0x00000001, .sha256, .sha256Core), (.hashSha384, .sha384, .sha512Core),
    (.wrCmd 0x00000011, .sha384, .sha512Core), (.hashSha512, .sha512, .sha512Core),
    (.wrCmd 0x00000021, .sha512, .sha512Core)]

theorem test_witness_OversizeLengthFaults :
    ∀ p ∈ hashForms, ∀ s ∈ [{ fresh p.2.2 [] with len := 257 }, { fresh p.2.2 [] with len := 0xFFFFFFFF }],
      s.fault = none ∧ accepts s.kind p.2.1 = true ∧ s.status.busy = false ∧ s.msgCap.val < s.len.toNat := by
  decide +kernel

/-- "abc" with its second byte unwritten, and a message of which the last byte alone is unwritten. -/
theorem test_witness_UnwrittenMessageBytesFault :
    (∀ p ∈ hashForms, ∀ q ∈ [({ fresh p.2.2 [] with len := 3, msg := [(0, 0x61), (2, 0x63)] }, 1),
      ({ loadedAbc p.2.2 [] with len := 4 }, 3)],
      q.1.fault = none ∧ accepts q.1.kind p.2.1 = true ∧ q.1.status.busy = false ∧ q.1.len.toNat ≤ q.1.msgCap.val ∧
        q.2 < q.1.len.toNat ∧ q.1.msg.read q.2 = none ∧ ∀ k, k < q.2 → q.1.msg.read k ≠ none) ∧
    (255#28).toNat < (fresh .sha256Core []).msgCap.val ∧ (fresh .sha256Core []).msg.read (255#28).toNat = none := by
  decide +kernel

/-- The empty message, "abc", and a message of the whole capacity, of a core of 4 cells. -/
theorem test_witness_HashCommandStartsJob :
    ∀ p ∈ hashForms, ∀ s ∈ [fresh p.2.2 [], loadedAbc p.2.2 [],
        { loadedAbc p.2.2 [] with msgCap := ⟨4, by decide⟩, len := 4, msg := (loadedAbc p.2.2 []).msg.write 3 0 }],
      s.fault = none ∧ accepts s.kind p.2.1 = true ∧ s.status.busy = false ∧ s.len.toNat ≤ s.msgCap.val ∧
        ∀ j, j < s.len.toNat → s.msg.read j ≠ none := by
  decide +kernel

theorem test_witness_ResetRestoresResetState :
    (runningAbc .sha256 []).fault = none ∧ (runningAbc .sha256 []).kind = .sha256Core ∧ (runningAbc .sha384 []).fault = none ∧
      (runningAbc .sha384 []).kind = .sha512Core ∧
      ((fresh .sha256Core []).withFault (.reservedCommand 0)).fault = some (.reservedCommand 0) := by
  decide

theorem test_witness_OnlyCommandsAndResetTouchTheJob :
    ∀ i ∈ [Instr.rdStatus, .rdLen, .rdMsg 0, .rdDig 0, .wrLen 0, .wrMsg 0 0],
      (next? (exec i (runningAbc .sha256 []))).isSome = true := by
  decide +kernel

theorem test_witness_NoOperationCancelsAJob :
    (runningAbc .sha256 []).status.busy = true ∧
      ∀ i ∈ [Instr.rdStatus, .rdMsg 0, .wrLen 0, .hashSha256, .reset], (next? (exec i (runningAbc .sha256 []))).isSome = true := by
  decide +kernel

/-! ### Units -/

theorem test_witness_word_ops : (0 < 1 ∧ 1 < 32) ∧ (0 < 31 ∧ 31 < 32) ∧ (0 < 63 ∧ 63 < 64) ∧ (0 < 1 ∧ 1 < 2) := by decide

theorem test_witness_ChAndMajFollowTruthTables : 0 < 32 ∧ 31 < 32 ∧ 63 < 64 := by decide

theorem test_witness_BlockCountBoundary :
    (0 < 56 ∧ 55 < 56) ∧ (56 ≤ 56 ∧ 63 < 64) ∧ (0 < 112 ∧ 111 < 112) ∧ (112 ≤ 112 ∧ 127 < 128) := by decide

/-- "abc" at width 32: `n` = 3, `B` = 64, `Lb` = 8, `N` = 1; the bytes 2, 3, 4, 55, 56 and 63 stand at the clauses'
ends. -/
theorem test_witness_PaddedBytesFollowRule :
    3 = abc.length ∧ 64 = 2 * 32 ∧ 8 = 32 / 4 ∧ 1 = 3 / 64 + (if 3 % 64 ≥ 64 - 8 then 2 else 1) ∧ 2 < 3 ∧ 3 = 3 ∧
      (3 < 4 ∧ 55 < 1 * 64 - 8) ∧ (1 * 64 - 8 ≤ 56 ∧ 63 < 1 * 64) ∧
      (128 = 2 * 64 ∧ 16 = 64 / 4 ∧ 1 = 3 / 128 + (if 3 % 128 ≥ 128 - 16 then 2 else 1)) := by
  decide

theorem test_witness_PaddingInvariants :
    abc.length ≤ 2 ^ 28 ∧ 1 = blocksFor 32 abc.length ∧ 64 = 2 * 32 ∧ 8 = 32 / 4 ∧ 1 = blocksFor 64 abc.length ∧
      128 = 2 * 64 ∧ 16 = 64 / 4 := by
  decide

theorem test_witness_FromBeInvertsBe : (65535 < 2 ^ (8 * 2) ∧ 1 < 2) ∧ 0 < 2 ^ (8 * 0) := by decide

theorem test_witness_BlockWordsAreBigEndian :
    (14 < 16 ∧ 15 < 16 ∧ 0 < 16) ∧ (4 = 32 / 8 ∧ 0 < blocksFor 32 abc.length ∧ 8 * abc.length < 2 ^ (2 * 32) ∧
      0 + 1 = blocksFor 32 abc.length ∧ abc.length ≤ 2 ^ 28) ∧
    (8 = 64 / 8 ∧ 0 < blocksFor 64 abc.length ∧ 8 * abc.length < 2 ^ (2 * 64) ∧ 0 + 1 = blocksFor 64 abc.length) := by
  decide

theorem test_witness_schedulers : (15 < 16 ∧ 15 < 64) ∧ (16 ≤ 16 ∧ 63 < 64) ∧ (16 ≤ 16 ∧ 79 < 80) := by decide

/-! ### The job -/

/-- The job of `runningAbc alg` in the midst of its block, at round index `t`. -/
def midAbc (alg : Alg) (t : Nat) : State :=
  match (runningAbc alg []).mdLoad with
  | some u => { u with round := some t }
  | none => fresh .sha256Core []

/-- The datapath's components of a state that have a value, and whether it is the wide one. -/
def present (s : State) : Bool × Bool × Bool × Bool :=
  match s.engine with
  | .w32 d => (false, d.hash.isSome, d.work.isSome, d.sched.isSome)
  | .w64 d => (true, d.hash.isSome, d.work.isSome, d.sched.isSome)

theorem test_witness_MicroStepLoadsBlock :
    ∀ p ∈ [(runningAbc .sha256 [], false), (runningAbc .sha384 [], true), (runningAbc .sha512 [], true)],
      p.1.seq = .run ∧ p.1.loaded = false ∧ p.1.message = some abc ∧ p.1.blockIdx = some 0 ∧ p.1.blockCount = some 1 ∧
        0 < 1 ∧ p.1.round = some 0 ∧ (present p.1).1 = p.2 ∧ (present p.1).2.1 = true := by
  decide +kernel

theorem test_witness_MicroStepRunsRound :
    ∀ p ∈ [(midAbc .sha256 0, false, 0), (midAbc .sha256 63, false, 63), (midAbc .sha512 79, true, 79)],
      p.1.seq = .run ∧ p.1.loaded = true ∧ p.1.blockIdx = some 0 ∧ p.1.blockCount = some 1 ∧ 0 < 1 ∧
        p.1.round = some p.2.2 ∧ present p.1 = (p.2.1, true, true, true) ∧ p.2.2 < p.1.engine.rounds := by
  decide +kernel

theorem test_witness_MicroStepChains :
    ∀ p ∈ [(midAbc .sha256 64, false, 64), (midAbc .sha384 80, true, 80)],
      p.1.seq = .run ∧ p.1.loaded = true ∧ p.1.blockIdx = some 0 ∧ p.1.blockCount = some 1 ∧ 0 < 1 ∧
        p.1.round = some p.2.2 ∧ present p.1 = (p.2.1, true, true, true) := by
  decide +kernel

theorem test_witness_DigestSerialisesHash :
    ∀ p ∈ [({ runningAbc .sha256 [] with seq := .out }, false), ({ runningAbc .sha384 [] with seq := .out }, true)],
      p.1.seq = .out ∧ (present p.1).1 = p.2 ∧ (present p.1).2.1 = true ∧ (p.2 = false → p.1.jalg = .sha256) := by
  decide +kernel

theorem test_witness_CoreNeverWritesInputs :
    (next? (runningAbc .sha256 []).coreMicro).isSome = true ∧ (next? (fresh .sha512Core []).coreRun).isSome = true := by
  decide +kernel

/-! ### The invariant -/

/-- An idle core with "abc" loaded. -/
theorem test_inv_loaded (k : CoreKind) (l : List Event) : (loadedAbc k l).Inv where
  status := ⟨by simp [loadedAbc, fresh, State.resetOf], by simp [loadedAbc, fresh, State.resetOf], rfl,
    fun h => (by cases h), fun h => (by rcases h with h | h <;> cases h)⟩
  buffers := ⟨by show Memory.wf [(0, 0x61), (1, 0x62), (2, 0x63)]; decide,
    by show ∀ cell ∈ [(0, 0x61#8), (1, 0x62#8), (2, 0x63#8)], cell.1 < 256; decide, List.Pairwise.nil,
    fun cell h => (by cases h), fun h => (by cases h)⟩
  job := fun h => absurd rfl h

/-- A core with a finished digest. -/
theorem test_inv_done : (doneAbc .sha256 32).Inv where
  status := ⟨by decide, by decide, rfl, fun _ => rfl, fun _ => rfl⟩
  buffers := ⟨by decide, by decide, by decide +kernel, by decide +kernel, by decide +kernel⟩
  job := fun h => absurd rfl h

/-- A job on "abc" just accepted. -/
theorem test_inv_running_256 (l : List Event) : (runningAbc .sha256 l).Inv where
  status := ⟨by simp [runningAbc, State.startJob, Status.accept], by simp [runningAbc, State.startJob, Status.accept],
    rfl, fun _ => rfl, fun _ => rfl⟩
  buffers :=
    ⟨(test_inv_loaded .sha256Core l).buffers.msgWf, (test_inv_loaded .sha256Core l).buffers.msgIn, List.Pairwise.nil, fun cell h => (by cases h), fun h => (by cases h)⟩
  job := fun _ => ⟨abc, 0, 1, 0, by
    have fits : (loadedAbc .sha256Core l).len.toNat ≤ (loadedAbc .sha256Core l).msgCap.val := by
      change 3 ≤ 256; decide
    have blocks : blocksFor (algWidth .sha256) (loadedAbc .sha256Core l).len.toNat = 1 := by
      change blocksFor 32 3 = 1; decide
    have h := State.startJob_job (s := loadedAbc .sha256Core l) (m := abc) (alg := .sha256)
      (g := .w32 (Datapath.unset.init iv256)) rfl fits rfl rfl
    rw [blocks] at h
    exact h⟩

theorem test_inv_running_512 (l : List Event) : (runningAbc .sha512 l).Inv where
  status := ⟨by simp [runningAbc, State.startJob, Status.accept], by simp [runningAbc, State.startJob, Status.accept],
    rfl, fun _ => rfl, fun _ => rfl⟩
  buffers :=
    ⟨(test_inv_loaded .sha512Core l).buffers.msgWf, (test_inv_loaded .sha512Core l).buffers.msgIn, List.Pairwise.nil, fun cell h => (by cases h), fun h => (by cases h)⟩
  job := fun _ => ⟨abc, 0, 1, 0, by
    have fits : (loadedAbc .sha512Core l).len.toNat ≤ (loadedAbc .sha512Core l).msgCap.val := by
      change 3 ≤ 256; decide
    have blocks : blocksFor (algWidth .sha512) (loadedAbc .sha512Core l).len.toNat = 1 := by
      change blocksFor 64 3 = 1; decide
    have h := State.startJob_job (s := loadedAbc .sha512Core l) (m := abc) (alg := .sha512)
      (g := .w64 (Datapath.unset.init iv512)) rfl fits rfl rfl
    rw [blocks] at h
    exact h⟩

theorem test_witness_DoneDigestIsReadable :
    (doneAbc .sha256 32).Inv ∧ (doneAbc .sha256 32).fault = none ∧ (doneAbc .sha256 32).status.done = true ∧
      (31#28).toNat < digestLen (doneAbc .sha256 32).status.lalg :=
  ⟨test_inv_done, by decide⟩

/-- `StepKeepsInvariant`, `StepKeepsStatusInvariants` and `ParametersNeverChange`: a step from a running job. -/
theorem test_witness_StepKeepsInvariant :
    (runningAbc .sha256 [.coreMicro]).Inv ∧ (runningAbc .sha256 [.coreMicro]).StatusOk ∧
      ∃ t, step (runningAbc .sha256 [.coreMicro]) = .next t :=
  ⟨test_inv_running_256 _, (test_inv_running_256 _).status, _, rfl⟩

/-- `CoreRunComputesDigest`, `MicroStepsReachCoreRun` and `JobTakesExactlyItsRounds`. -/
theorem test_witness_CoreRunComputesDigest :
    (runningAbc .sha256 []).Inv ∧ (runningAbc .sha256 []).seq = .run ∧ (runningAbc .sha256 []).message = some abc ∧
      (runningAbc .sha256 []).blockIdx = some 0 ∧ (runningAbc .sha256 []).loaded = false ∧
      (runningAbc .sha256 []).blockCount = some 1 ∧ (runningAbc .sha256 []).kind = .sha256Core :=
  ⟨test_inv_running_256 _, by decide⟩

theorem test_witness_CoreRunComputesDigest_wide :
    (runningAbc .sha512 []).Inv ∧ (runningAbc .sha512 []).seq = .run ∧ (runningAbc .sha512 []).message = some abc ∧
      (runningAbc .sha512 []).blockIdx = some 0 ∧ (runningAbc .sha512 []).loaded = false ∧
      (runningAbc .sha512 []).blockCount = some 1 ∧ (runningAbc .sha512 []).kind = .sha512Core :=
  ⟨test_inv_running_512 _, by decide⟩

/-- Two states that differ in the datapath and the place in the job. -/
theorem test_witness_HostCannotObserveDatapath :
    (runningAbc .sha256 []).SameToHost { midAbc .sha256 5 with engine := .unset .sha256Core } ∧
      runningAbc .sha256 [] ≠ { midAbc .sha256 5 with engine := .unset .sha256Core } :=
  ⟨⟨rfl, rfl, rfl, rfl, rfl, rfl, rfl, rfl⟩, by intro h; have := congrArg State.round h; revert this; decide +kernel⟩

theorem test_witness_HashThenCoreRunGivesDigest :
    ∀ p ∈ hashForms, let s := loadedAbc p.2.2 [.host (encode p.1), .coreRun]
      s.Inv ∧ s.fault = none ∧ s.status.busy = false ∧ accepts s.kind p.2.1 = true ∧ s.message = some abc ∧
        abc.length ≤ s.msgCap.val ∧ s.input = .host (encode p.1) :: .coreRun :: [] := by
  intro p hp
  refine ⟨test_inv_loaded _ _, rfl, rfl, ?_, rfl, show 3 ≤ 256 by decide, rfl⟩
  revert hp; revert p; decide

/-- `load`, a HASH command, CoreRun, one poll, `rddig`, on each kind of core. -/
theorem test_witness_ScriptReadsDigest :
    ∀ p ∈ [(ScriptLine.hashSha256, Alg.sha256, CoreKind.sha256Core), (.hashSha384, .sha384, .sha512Core),
      (.hashSha512, .sha512, .sha512Core)],
      let l := ((ScriptLine.load abc).expand 0 ++ p.1.expand 0).map Event.host ++
        .coreRun :: ((ScriptLine.wait.expand 1 ++ (ScriptLine.rddig (digestLen p.2.1)).expand 0).map Event.host ++ [])
      (loadedAbc p.2.2 l).Inv ∧ (loadedAbc p.2.2 l).fault = none ∧ (loadedAbc p.2.2 l).status.busy = false ∧
        accepts (loadedAbc p.2.2 l).kind p.2.1 = true ∧ abc.length ≤ (loadedAbc p.2.2 l).msgCap.val ∧
        (loadedAbc p.2.2 l).input = l := by
  intro p hp
  refine ⟨test_inv_loaded _ _, rfl, rfl, ?_, show 3 ≤ 256 by decide, rfl⟩
  revert hp; revert p; decide

end Sys2Proof.Machine.Tests
end

section
/-! PROOFS. Scope: big-endian byte sequences (spec/00_scope.md R12). -/

namespace Sys2Proof.Machine

/-- R12's mask with `0xFF`: a byte of `BE_n` already holds its quotient modulo `2^8`. -/
theorem beByte_eq_ofNat_mod (n v k : Nat) : beByte n v k = BitVec.ofNat 8 (v / 2 ^ (8 * (n - 1 - k)) % 256) := by
  apply BitVec.eq_of_toNat_eq
  simp [beByte]

/-- `fromBE` inverts `BE_n` on the numbers that fit `n` bytes. -/
theorem fromBE_beBytes_of_lt {n v : Nat} (hv : v < 2 ^ (8 * n)) : fromBE (beBytes n v) = v := by
  rw [fromBE_beBytes_mod, Nat.mod_eq_of_lt hv]

/-- Settles O38: each byte is read off `BE_n`, the inverse holds because `v` is below the modulus `2^(8n)`, and the sum
is the one `fromBE` unfolds to on every sequence. -/
theorem fromBeInvertsBe : Obligations.FromBeInvertsBe := by
  refine ⟨fun n v hv => ⟨beBytes_length n v, fromBE_beBytes_of_lt hv, fun k hk => ?_⟩, fromBE_eq_sum⟩
  rw [beBytes_getElem? n v k hk, beByte_eq_ofNat_mod]

end Sys2Proof.Machine
end

section
/-! PROOFS. Scope: the truth tables of Ch and Maj (spec/40_word_ops.md R104 and R105). -/

namespace Sys2Proof.Machine

/-- R104 bit by bit: where `x` is 1 the second conjunction is 0, and where `x` is 0 the first is. -/
theorem getLsbD_choose {w : Nat} (x y z : BitVec w) {i : Nat} (hi : i < w) :
    (choose x y z).getLsbD i = if x.getLsbD i then y.getLsbD i else z.getLsbD i := by
  simp only [choose, BitVec.getLsbD_xor, BitVec.getLsbD_and, BitVec.getLsbD_not, hi, decide_true, Bool.true_and]
  cases x.getLsbD i with
  | false => simp
  | true => simp

/-- R105 on one bit: the exclusive or of the three pairwise conjunctions says whether at least two of the bits are 1. -/
theorem xor_pairwise_and_eq_majority :
    ∀ a b c : Bool, ((a && b) ^^ (a && c) ^^ (b && c)) = decide (2 ≤ a.toNat + b.toNat + c.toNat) := by
  decide

/-- R105 bit by bit; it also holds above the width, where all bits are 0. -/
theorem getLsbD_majority {w : Nat} (x y z : BitVec w) (i : Nat) :
    (majority x y z).getLsbD i =
      decide (2 ≤ (x.getLsbD i).toNat + (y.getLsbD i).toNat + (z.getLsbD i).toNat) := by
  simp only [majority, BitVec.getLsbD_xor, BitVec.getLsbD_and]
  exact xor_pairwise_and_eq_majority _ _ _

/-- Settles O32: R104 and R105 speak of each bit on its own, and so do the operations they are built from. -/
theorem chAndMajFollowTruthTables : Obligations.ChAndMajFollowTruthTables :=
  fun _ x y z i hi => ⟨getLsbD_choose x y z hi, getLsbD_majority x y z i⟩

end Sys2Proof.Machine
end

section
/-! PROOFS. Scope: the block count and the bytes of the padded message (spec/41_padder.md R132 and R135). -/

namespace Sys2Proof.Machine

/-- R131 and R135 at any width: `q` full blocks and `r` further bytes. -/
theorem blocksFor_blocks_add (w q r : Nat) (hr : r < blockBytes w) :
    blocksFor w (blockBytes w * q + r) = q + (if r ≥ blockBytes w - lengthBytes w then 2 else 1) := by
  rw [blocksFor, Nat.mul_add_mod, Nat.mod_eq_of_lt hr, Nat.mul_add_div (Nat.zero_lt_of_lt hr), Nat.div_eq_of_lt hr,
    Nat.add_zero]

/-- The length field and the marker fit the last begun block when `r` is below `B - Lb`. -/
theorem blocksFor_of_lt {w r : Nat} (q : Nat) (hr : r < blockBytes w - lengthBytes w) :
    blocksFor w (blockBytes w * q + r) = q + 1 := by
  rw [blocksFor_blocks_add w q r (Nat.lt_of_lt_of_le hr (Nat.sub_le _ _)), if_neg (Nat.not_le.mpr hr)]

/-- The length field needs a block of its own when `r` is `B - Lb` or more. -/
theorem blocksFor_of_ge {w r : Nat} (q : Nat) (hge : blockBytes w - lengthBytes w ≤ r) (hr : r < blockBytes w) :
    blocksFor w (blockBytes w * q + r) = q + 2 := by
  rw [blocksFor_blocks_add w q r hr, if_pos hge]

/-- Settles O35: at the widths 32 and 64, `B` is 64 and 128, and `B - Lb` is 56 and 112. -/
theorem blockCountBoundary : Obligations.BlockCountBoundary :=
  fun q _ => ⟨blocksFor_of_lt (w := 32) q, blocksFor_of_ge (w := 32) q,
    blocksFor_of_lt (w := 64) q, blocksFor_of_ge (w := 64) q⟩

/-- R132, first case: the message's own bytes. -/
theorem padded_getElem?_message (w : Nat) (m : List Byte) {j : Nat} (hj : j < m.length) :
    (padded w m)[j]? = m[j]? :=
  List.getElem?_append_left hj

/-- R132, second case: the marker (R133). -/
theorem padded_getElem?_marker (w : Nat) (m : List Byte) : (padded w m)[m.length]? = some 0x80#8 := by
  rw [padded, List.getElem?_append_right (Nat.le_refl _), Nat.sub_self, List.getElem?_cons_zero]

/-- R132, third case: the zero fill, counted from the marker. -/
theorem padded_getElem?_zeroFill (w : Nat) (m : List Byte) {k : Nat} (hk : k < zeroFill w m.length) :
    (padded w m)[m.length + (k + 1)]? = some 0x00#8 := by
  rw [padded, List.getElem?_append_right (Nat.le_add_right _ _), Nat.add_sub_cancel_left, List.getElem?_cons_succ,
    List.getElem?_append_left (by rwa [List.length_replicate]), List.getElem?_replicate_of_lt hk]

/-- R132, fourth case: the length field, counted from its first byte. -/
theorem padded_getElem?_lengthField {w : Nat} (m : List Byte) (hw : w = 32 ∨ w = 64) {k : Nat}
    (hk : k < lengthBytes w) :
    (padded w m)[blocksFor w m.length * blockBytes w - lengthBytes w + k]? =
      some (beByte (lengthBytes w) (8 * m.length) k) := by
  rw [← List.getElem?_drop, padded_drop w m hw, beBytes_getElem? _ _ k hk]

/-- R7: a block is 16 words, `2·w` bytes. -/
theorem blockBytes_eq {w : Nat} (hw : w = 32 ∨ w = 64) : blockBytes w = 2 * w := by
  rcases hw with rfl | rfl
  · rfl
  · rfl

/-- R7: the length field is two words, `w/4` bytes. -/
theorem lengthBytes_eq {w : Nat} (hw : w = 32 ∨ w = 64) : lengthBytes w = w / 4 := by
  rcases hw with rfl | rfl
  · rfl
  · rfl

/-- Settles O36: the four cases are the four parts `padded` is appended from, and `padding_fits` places their ends. -/
theorem paddedBytesFollowRule : Obligations.PaddedBytesFollowRule := by
  rintro w m _ B Lb N j hw rfl hB hLb hN
  obtain rfl : B = blockBytes w := hB.trans (blockBytes_eq hw).symm
  obtain rfl : Lb = lengthBytes w := hLb.trans (lengthBytes_eq hw).symm
  obtain rfl : N = blocksFor w m.length := hN
  obtain ⟨hfits, -⟩ := padding_fits w m.length hw
  refine ⟨padded_length w m hw, padded_getElem?_message w m,
    fun hj => hj ▸ padded_getElem?_marker w m, fun hn hj => ?zeroFill, fun hj hlt => ?lengthField⟩
  case zeroFill =>
    obtain ⟨k, rfl⟩ : ∃ k, j = m.length + (k + 1) := Nat.exists_eq_add_of_lt hn
    exact padded_getElem?_zeroFill w m (by rw [zeroFill]; omega)
  case lengthField =>
    obtain ⟨k, rfl⟩ := Nat.exists_eq_add_of_le hj
    rw [Nat.add_sub_cancel_left]
    exact padded_getElem?_lengthField m hw (by omega)

end Sys2Proof.Machine
end

section
/-! PROOFS. Scope: the words of the padded message's blocks (spec/42_block_parser.md R140). -/

namespace Sys2Proof.Machine

/-- R140: `wb` bytes are the `w` bits of a word. -/
theorem eight_mul_wordBytes {w : Nat} (hw : w = 32 ∨ w = 64) : 8 * wordBytes w = w := by
  rcases hw with rfl | rfl
  · rfl
  · rfl

/-- R12's sum over the `n` bytes of `P` from `a` on. -/
theorem fromBE_take_drop_eq_sum {p : List Byte} {a n : Nat} (hlen : ((p.drop a).take n).length = n) :
    fromBE ((p.drop a).take n) =
      ∑ k ∈ Finset.range n, (p.getD (a + k) 0).toNat * 2 ^ (8 * (n - 1 - k)) := by
  rw [fromBE_eq_sum, hlen]
  refine Finset.sum_congr rfl fun k hk => ?_
  rw [List.getD_eq_getElem?_getD, List.getElem?_take_of_lt (Finset.mem_range.mp hk), List.getElem?_drop,
    ← List.getD_eq_getElem?_getD]

/-- Word 14 of the last block begins where the length field does. -/
theorem lastBlock_word14_offset {w N i : Nat} (hi : i + 1 = N) :
    i * blockBytes w + 14 * wordBytes w = N * blockBytes w - lengthBytes w := by
  subst hi
  rw [Nat.add_mul, blockBytes, lengthBytes]
  omega

/-- The length field (R132) is two words, the higher first. -/
theorem beBytes_lengthBytes {w : Nat} (hw : w = 32 ∨ w = 64) (v : Nat) :
    beBytes (lengthBytes w) v = beBytes (wordBytes w) (v / 2 ^ w) ++ beBytes (wordBytes w) v := by
  rw [lengthBytes, Nat.two_mul, beBytes_add, eight_mul_wordBytes hw]

/-- From word 14 on, the last block is the length field's two words. -/
theorem padded_drop_word14 {w : Nat} (m : List Byte) {i : Nat} (hw : w = 32 ∨ w = 64)
    (hi : i + 1 = blocksFor w m.length) :
    (padded w m).drop (i * blockBytes w + 14 * wordBytes w) =
      beBytes (wordBytes w) (8 * m.length / 2 ^ w) ++ beBytes (wordBytes w) (8 * m.length) := by
  rw [lastBlock_word14_offset hi, padded_drop w m hw, beBytes_lengthBytes hw]

/-- Word 14 of the last block is the higher word of the bit length, modulo `2^w`. -/
theorem parseBlock_last_word14 {w : Nat} (m : List Byte) {i : Nat} (hw : w = 32 ∨ w = 64)
    (hi : i + 1 = blocksFor w m.length) :
    ((parseBlock w (padded w m) i)[14]).toNat = 8 * m.length / 2 ^ w % 2 ^ w := by
  rw [parseBlock_toNat w m i 14 hw (by decide) (hi ▸ Nat.lt_succ_self i), padded_drop_word14 m hw hi,
    List.take_left' (beBytes_length _ _), fromBE_beBytes_mod, eight_mul_wordBytes hw]

/-- Word 15 of the last block is the lower word of the bit length. -/
theorem parseBlock_last_word15 {w : Nat} (m : List Byte) {i : Nat} (hw : w = 32 ∨ w = 64)
    (hi : i + 1 = blocksFor w m.length) :
    ((parseBlock w (padded w m) i)[15]).toNat = 8 * m.length % 2 ^ w := by
  have hdrop : (padded w m).drop (i * blockBytes w + 15 * wordBytes w) = beBytes (wordBytes w) (8 * m.length) := by
    rw [show 15 * wordBytes w = 14 * wordBytes w + wordBytes w from Nat.succ_mul 14 _, ← Nat.add_assoc,
      ← List.drop_drop, padded_drop_word14 m hw hi, List.drop_left' (beBytes_length _ _)]
  rw [parseBlock_toNat w m i 15 hw (by decide) (hi ▸ Nat.lt_succ_self i), hdrop,
    List.take_of_length_le (beBytes_length _ _).le, fromBE_beBytes_mod, eight_mul_wordBytes hw]

/-- R136: the bit length of a message that fits a message buffer is below one word. -/
theorem bitLength_lt_word {w n : Nat} (hw : w = 32 ∨ w = 64) (hn : n ≤ 2 ^ 28) : 8 * n < 2 ^ w :=
  calc 8 * n ≤ 2 ^ 31 := by omega
    _ < 2 ^ w := Nat.pow_lt_pow_right (by decide) (by omega)

/-- Settles O39: a word's bytes by R12's sum, and the last block's words as the two halves of the length field. -/
theorem blockWordsAreBigEndian : Obligations.BlockWordsAreBigEndian := by
  rintro w wb m i j hj hw rfl
  refine ⟨fun hi => ?bytes, fun hn hi => ⟨?word14, ?word15⟩, fun hn hi => ⟨?word14Fits, ?word15Fits⟩⟩
  case bytes =>
    rw [parseBlock_toNat w m i j hw hj hi]
    exact fromBE_take_drop_eq_sum (block_slice_length w m i j hw hj hi)
  case word14 =>
    rintro rfl
    have hhigh : 8 * m.length / 2 ^ w < 2 ^ w := Nat.div_lt_of_lt_mul (by rwa [← pow_add, ← Nat.two_mul])
    rw [parseBlock_last_word14 m hw hi, Nat.mod_eq_of_lt hhigh]
  case word15 =>
    rintro rfl
    exact parseBlock_last_word15 m hw hi
  case word14Fits =>
    rintro rfl
    rw [parseBlock_last_word14 m hw hi, Nat.div_eq_of_lt (bitLength_lt_word hw hn), Nat.zero_mod]
  case word15Fits =>
    rintro rfl
    rw [parseBlock_last_word15 m hw hi, Nat.mod_eq_of_lt (bitLength_lt_word hw hn)]

end Sys2Proof.Machine
end

section
/-! PROOFS. Scope: the message schedulers' recurrence and corner cases (spec/43_message_scheduler.md R150 and R151). -/

namespace Sys2Proof.Machine

/-! ### The recurrence at any width -/

/-- A schedule grown to `16 + m` entries has the entries it had at `16 + n`. -/
theorem scheduleTo_getElem_of_le {w e : Nat} (c : WordConfig w e) (mb : Vector (BitVec w) 16) {n m t : Nat}
    (hnm : n ≤ m) (ht : t < 16 + n) :
    (scheduleTo c mb m)[t]'(by omega) = (scheduleTo c mb n)[t] := by
  induction m, hnm using Nat.le_induction with
  | base => rfl
  | succ m hnm ih => rw [scheduleTo_succ_lt c mb m t (by omega), ih]

/-- Entries 0 to 15 are the block's words. -/
theorem schedule_getElem_of_lt {w e : Nat} (c : WordConfig w e) (mb : Vector (BitVec w) 16) {t : Nat} (ht : t < 16) :
    (schedule c mb)[t]'(by omega) = mb[t] :=
  scheduleTo_getElem_of_le c mb (Nat.zero_le e) ht

/-- Each later entry is computed from four entries before it: it is the newest entry of a schedule grown that far,
and the whole schedule keeps it and the four. -/
theorem schedule_getElem_of_ge {w e : Nat} (c : WordConfig w e) (mb : Vector (BitVec w) 16) {t : Nat} (hge : 16 ≤ t)
    (ht : t < 16 + e) :
    (schedule c mb)[t] =
      lowerSigma1 c (schedule c mb)[t - 2] + (schedule c mb)[t - 7] + lowerSigma0 c (schedule c mb)[t - 15] +
        (schedule c mb)[t - 16] := by
  obtain ⟨n, rfl⟩ := Nat.exists_eq_add_of_le hge
  have kept : ∀ i (hi : i < 16 + n), (schedule c mb)[i] = (scheduleTo c mb n)[i] := fun i hi =>
    scheduleTo_getElem_of_le c mb (by omega) hi
  have newest : (schedule c mb)[16 + n] = nextScheduleWord c (scheduleTo c mb n) := by
    rw [schedule, scheduleTo_getElem_of_le c mb (n := n + 1) (by omega) (by omega), scheduleTo_succ_last]
  rw [newest, nextScheduleWord, kept (16 + n - 2) (by omega), kept (16 + n - 7) (by omega),
    kept (16 + n - 15) (by omega), kept (16 + n - 16) (by omega)]

/-! ### The schedule of the all-zero block -/

@[simp] theorem lowerSigma0_zero {w e : Nat} (c : WordConfig w e) : lowerSigma0 c 0#w = 0#w := by
  simp [lowerSigma0, mixShift, rotr, shr]

@[simp] theorem lowerSigma1_zero {w e : Nat} (c : WordConfig w e) : lowerSigma1 c 0#w = 0#w := by
  simp [lowerSigma1, mixShift, rotr, shr]

/-- A block of zeros has a schedule of zeros: the recurrence sums four zeros. -/
theorem schedule_replicate_zero {w e : Nat} (c : WordConfig w e) (t : Nat) (ht : t < 16 + e) :
    (schedule c (Vector.replicate 16 0#w))[t] = 0#w := by
  induction t using Nat.strong_induction_on with
  | _ t ih =>
    rcases Nat.lt_or_ge t 16 with hlt | hge
    · rw [schedule_getElem_of_lt c _ hlt, Vector.getElem_replicate]
    · rw [schedule_getElem_of_ge c _ hge ht, ih (t - 2) (by omega), ih (t - 7) (by omega), ih (t - 15) (by omega),
        ih (t - 16) (by omega)]
      simp

/-! ### The two schedulers -/

/-- Settles O40: the recurrence at width 32, and the all-ones block's entries by evaluating the scheduler. -/
theorem scheduler32FollowsRecurrence : Obligations.Scheduler32FollowsRecurrence := by
  refine ⟨fun mb t ht => ⟨fun h => ?block, fun h => ?recurrence⟩, fun t ht => ?zeros, ?ones⟩
  case block => exact schedule_getElem_of_lt config32 mb h
  case recurrence => exact schedule_getElem_of_ge config32 mb h ht
  case zeros => exact schedule_replicate_zero config32 t ht
  case ones => decide +kernel

/-- Settles O41: the recurrence at width 64, and the all-ones block's entries by evaluating the scheduler. -/
theorem scheduler64FollowsRecurrence : Obligations.Scheduler64FollowsRecurrence := by
  refine ⟨fun mb t ht => ⟨fun h => ?block, fun h => ?recurrence⟩, fun t ht => ?zeros, ?ones⟩
  case block => exact schedule_getElem_of_lt config64 mb h
  case recurrence => exact schedule_getElem_of_ge config64 mb h ht
  case zeros => exact schedule_replicate_zero config64 t ht
  case ones => decide +kernel

end Sys2Proof.Machine
end

section
/-! PROOFS. Scope: one compression round (spec/44_compression_round.md R160 and R161). -/

namespace Sys2Proof.Machine

/-! ### The upper sigmas by the library's rotation -/

/-- The form shared by R108 and R109, at amounts below the width, by the library's rotation. -/
theorem mixRotate_eq_rotateRight {w : Nat} {q : Nat × Nat × Nat} (x : BitVec w)
    (hq : q.1 < w ∧ q.2.1 < w ∧ q.2.2 < w) :
    mixRotate q x = x.rotateRight q.1 ^^^ x.rotateRight q.2.1 ^^^ x.rotateRight q.2.2 := by
  obtain ⟨hfst, hsnd, hthd⟩ := hq
  rw [mixRotate, rotr_eq_rotateRight x _ hfst, rotr_eq_rotateRight x _ hsnd, rotr_eq_rotateRight x _ hthd]

/-! ### The two sums of a round at any width -/

/-- R160's `T1` with Σ1 and Ch written out. -/
theorem roundT1_eq {w e : Nat} (c : WordConfig w e) (s : Work w) (kt wt : BitVec w)
    (hc : c.upper1.1 < w ∧ c.upper1.2.1 < w ∧ c.upper1.2.2 < w) :
    roundT1 c s kt wt =
      s.h + (s.e.rotateRight c.upper1.1 ^^^ s.e.rotateRight c.upper1.2.1 ^^^ s.e.rotateRight c.upper1.2.2) +
        ((s.e &&& s.f) ^^^ (~~~s.e &&& s.g)) + kt + wt := by
  rw [roundT1, upperSigma1, mixRotate_eq_rotateRight s.e hc, choose]

/-- R160's `T2` with Σ0 and Maj written out. -/
theorem roundT2_eq {w e : Nat} (c : WordConfig w e) (s : Work w)
    (hc : c.upper0.1 < w ∧ c.upper0.2.1 < w ∧ c.upper0.2.2 < w) :
    roundT2 c s =
      (s.a.rotateRight c.upper0.1 ^^^ s.a.rotateRight c.upper0.2.1 ^^^ s.a.rotateRight c.upper0.2.2) +
        ((s.a &&& s.b) ^^^ (s.a &&& s.c) ^^^ (s.b &&& s.c)) := by
  rw [roundT2, upperSigma0, mixRotate_eq_rotateRight s.a hc, majority]

/-! ### The two round units -/

/-- Settles O42: `T1` and `T2` are the round's own two sums, at the amounts of each width's configuration, and the
model's round is R160's tuple of them. -/
theorem roundsFollowRule : Obligations.RoundsFollowRule := by
  refine ⟨fun s kt wt => ⟨roundT1 config32 s kt wt, roundT2 config32 s, ?t1w32, ?t2w32, rfl⟩,
    fun s kt wt => ⟨roundT1 config64 s kt wt, roundT2 config64 s, ?t1w64, ?t2w64, rfl⟩⟩
  case t1w32 => exact roundT1_eq config32 s kt wt (by decide)
  case t2w32 => exact roundT2_eq config32 s (by decide)
  case t1w64 => exact roundT1_eq config64 s kt wt (by decide)
  case t2w64 => exact roundT2_eq config64 s (by decide)

end Sys2Proof.Machine
end

section
/-! PROOFS. Scope: what an accepted HASH command writes (spec/48_host_operations.md R200, spec/45_chaining_and_digest.md
R170). -/

namespace Sys2Proof.Machine

variable {s : State}

/-! ### The encodings of a HASH command -/

/-- The HASH commands with their selectors, each as the command and as the WR_CMD of its word (R85). -/
def hashEncodings : List (Instr × Alg) :=
  [(.hashSha256, .sha256), (.wrCmd 0x00000001#32, .sha256), (.hashSha384, .sha384),
    (.wrCmd 0x00000011#32, .sha384), (.hashSha512, .sha512), (.wrCmd 0x00000021#32, .sha512)]

/-- Both encodings of a HASH command run the acceptance of its selector. -/
theorem exec_of_mem_hashEncodings {i : Instr} {alg : Alg} (h : (i, alg) ∈ hashEncodings) (s : State) :
    ∃ data, exec i s = s.ifEnabled (s.acceptHash data alg) := by
  simp only [hashEncodings, List.mem_cons, Prod.mk.injEq, List.not_mem_nil, or_false] at h
  rcases h with ⟨rfl, rfl⟩ | ⟨rfl, rfl⟩ | ⟨rfl, rfl⟩ | ⟨rfl, rfl⟩ | ⟨rfl, rfl⟩ | ⟨rfl, rfl⟩
  · exact ⟨cmdSha256, rfl⟩
  · exact ⟨0x00000001#32, rfl⟩
  · exact ⟨cmdSha384, rfl⟩
  · exact ⟨0x00000011#32, rfl⟩
  · exact ⟨cmdSha512, rfl⟩
  · exact ⟨0x00000021#32, rfl⟩

/-! ### Acceptance without a fault -/

/-- The walk over cells that are all written finds no unwritten one. -/
theorem Memory.firstUnwritten_eq_none_of_written {m : Memory} {n : Nat} (h : ∀ j, j < n → m.read j ≠ none) :
    m.firstUnwritten 0 n = none := by
  cases hu : m.firstUnwritten 0 n with
  | none => rfl
  | some j =>
    obtain ⟨-, hj, hr, -⟩ := Memory.firstUnwritten_eq_some_iff.mp hu
    exact absurd hr (h j (by omega))

/-- Where none of R200's faults applies, acceptance starts the job. -/
theorem State.acceptHash_starts (data : HWord) {alg : Alg} (acc : accepts s.kind alg = true)
    (idle : s.status.busy = false) (fits : s.len.toNat ≤ s.msgCap.val)
    (written : ∀ j, j < s.len.toNat → s.msg.read j ≠ none) :
    ∃ g, s.engine.init alg = some g ∧
      s.acceptHash data alg = .next (s.startJob alg g (blocksFor (algWidth alg) s.len.toNat)) := by
  have hu := Memory.firstUnwritten_eq_none_of_written written
  rcases s.acceptHash_cases data alg with
    ⟨hacc, -⟩ | ⟨-, hbusy, -⟩ | ⟨-, -, hlen, -⟩ | ⟨-, -, -, j, hj, -⟩ | ⟨-, -, -, -, hstart⟩
  · simp [acc] at hacc
  · simp [idle] at hbusy
  · omega
  · simp [hu] at hj
  · exact hstart

/-! ### MD_INIT (R170) and the block count (R131) of a selector -/

theorem Engine.init_w32_eq_some {d : Datapath 32 48} {alg : Alg} {g : Engine} (h : (Engine.w32 d).init alg = some g) :
    g = .w32 { d with hash := some iv256 } := by
  cases alg with
  | sha256 => exact (Option.some.inj h).symm
  | sha384 => cases h
  | sha512 => cases h

theorem Engine.init_w64_eq_some {d : Datapath 64 64} {alg : Alg} {g : Engine} (h : (Engine.w64 d).init alg = some g) :
    g = .w64 { d with hash := some (if alg = .sha384 then iv384 else iv512) } := by
  cases alg with
  | sha256 => cases h
  | sha384 => exact (Option.some.inj h).symm
  | sha512 => exact (Option.some.inj h).symm

theorem blocksFor_algWidth (alg : Alg) (n : Nat) :
    blocksFor (algWidth alg) n = if alg = .sha256 then n / 64 + (if n % 64 ≥ 56 then 2 else 1)
      else n / 128 + (if n % 128 ≥ 112 then 2 else 1) := by
  cases alg with
  | sha256 => exact blocksFor_32 n
  | sha384 => exact blocksFor_64 n
  | sha512 => exact blocksFor_64 n

/-- Settles O25: both encodings run acceptance, no fault of R200 applies, and the started job's fields are those that
acceptance and MD_INIT write. -/
theorem hashCommandStartsJob : Obligations.HashCommandStartsJob := by
  intro s i alg hi hf acc idle fits written
  obtain ⟨data, hexec⟩ := exec_of_mem_hashEncodings hi s
  obtain ⟨g, hg, hstart⟩ := State.acceptHash_starts data acc idle fits written
  refine ⟨s.startJob alg g (blocksFor (algWidth alg) s.len.toNat), ?runs, rfl, rfl, rfl, rfl, ?blocks, ?narrow, ?wide,
    rfl, rfl, rfl, rfl, hf, rfl, rfl⟩
  case runs => rw [hexec, State.ifEnabled_of_none hf, hstart]
  case blocks => rw [State.startJob_blockCount, blocksFor_algWidth]
  case narrow =>
    intro d hd
    exact Engine.init_w32_eq_some (hd ▸ hg)
  case wide =>
    intro d hd
    exact Engine.init_w64_eq_some (hd ▸ hg)

end Sys2Proof.Machine
end

section
/-! PROOFS. Scope: no host operation but RESET touches a running job (spec/45_chaining_and_digest.md R179). -/

namespace Sys2Proof.Machine

variable {s t : State}

/-! ### The next states of the single operations -/

theorem exec_wrLen_next {data : HWord} (h : exec (.wrLen data) s = .next t) :
    (∃ m, t = s.withFault m) ∨ (s.status.busy = false ∧ t = s.withLen data) := by
  obtain ⟨-, h⟩ := State.ifEnabled_next h
  split at h
  · exact .inl ⟨_, State.raiseFault_next h⟩
  · next idle => cases h; exact .inr ⟨Bool.eq_false_of_not_eq_true idle, rfl⟩

theorem exec_wrMsg_next {idx : Index} {data : HWord} (h : exec (.wrMsg idx data) s = .next t) :
    (∃ m, t = s.withFault m) ∨ (s.status.busy = false ∧ t = s.withMsgByte idx.toNat (dataByte data)) := by
  obtain ⟨-, h⟩ := State.ifEnabled_next h
  split at h
  · exact .inl ⟨_, State.raiseFault_next h⟩
  split at h
  · exact .inl ⟨_, State.raiseFault_next h⟩
  split at h
  · exact .inl ⟨_, State.raiseFault_next h⟩
  · next idle => cases h; exact .inr ⟨Bool.eq_false_of_not_eq_true idle, rfl⟩

theorem exec_rdMsg_next {idx : Index} (h : exec (.rdMsg idx) s = .next t) :
    (∃ m, t = s.withFault m) ∨ ∃ v, t = s.withRead v := by
  obtain ⟨-, h⟩ := State.ifEnabled_next h
  split at h
  · exact .inl ⟨_, State.raiseFault_next h⟩
  split at h
  · exact .inl ⟨_, State.raiseFault_next h⟩
  · cases h; exact .inr ⟨_, rfl⟩

theorem exec_rdDig_next {idx : Index} (h : exec (.rdDig idx) s = .next t) :
    (∃ m, t = s.withFault m) ∨ ∃ v, t = s.withRead v := by
  obtain ⟨-, h⟩ := State.ifEnabled_next h
  split at h
  · exact .inl ⟨_, State.raiseFault_next h⟩
  split at h
  · exact .inl ⟨_, State.raiseFault_next h⟩
  split at h
  · exact .inl ⟨_, State.raiseFault_next h⟩
  split at h
  · cases h
  · cases h; exact .inr ⟨_, rfl⟩

theorem exec_reset_next (h : exec .reset s = .next t) : t = s.afterReset := by
  obtain ⟨-, h⟩ := State.ifEnabled_next h
  cases h
  rfl

/-! ### Operations while a job runs -/

/-- While a job runs, acceptance answers only faults. -/
theorem State.acceptHash_next_of_busy {data : HWord} {alg : Alg} (busy : s.status.busy = true)
    (h : s.acceptHash data alg = .next t) : ∃ m, t = s.withFault m := by
  rcases State.acceptHash_next h with hm | ⟨-, idle, -⟩
  · exact hm
  · simp [busy] at idle

/-- While a job runs, every operation but RESET raises a fault or is a read. -/
theorem exec_next_of_busy {i : Instr} (busy : s.status.busy = true) (hi : i ≠ .reset) (h : exec i s = .next t) :
    (∃ m, t = s.withFault m) ∨ ∃ v, t = s.withRead v := by
  cases i with
  | wrCmd data =>
    rcases State.writeCommand_next (State.ifEnabled_next h).2 with hm | ⟨alg, ha⟩
    · exact .inl hm
    · exact .inl (State.acceptHash_next_of_busy busy ha)
  | hashSha256 => exact .inl (State.acceptHash_next_of_busy busy (State.ifEnabled_next h).2)
  | hashSha384 => exact .inl (State.acceptHash_next_of_busy busy (State.ifEnabled_next h).2)
  | hashSha512 => exact .inl (State.acceptHash_next_of_busy busy (State.ifEnabled_next h).2)
  | rdStatus => cases (State.ifEnabled_next h).2; exact .inr ⟨_, rfl⟩
  | rdLen => cases (State.ifEnabled_next h).2; exact .inr ⟨_, rfl⟩
  | wrLen data => exact (exec_wrLen_next h).imp_right fun ⟨idle, _⟩ => by simp [busy] at idle
  | wrMsg idx data => exact (exec_wrMsg_next h).imp_right fun ⟨idle, _⟩ => by simp [busy] at idle
  | rdMsg idx => exact exec_rdMsg_next h
  | rdDig idx => exact exec_rdDig_next h
  | reset => exact absurd rfl hi

/-- Settles O29: while a job runs the only effects but RESET's are a fault mark and a read value, and neither is part of
the job; RESET answers the reset state. -/
theorem noOperationCancelsAJob : Obligations.NoOperationCancelsAJob := by
  intro s t i busy h
  refine ⟨fun hi => ?kept, fun hi => ?abandoned⟩
  case kept =>
    rcases exec_next_of_busy busy hi h with ⟨m, rfl⟩ | ⟨v, rfl⟩
    · exact ⟨rfl, rfl, rfl, rfl, rfl, rfl, rfl, rfl, rfl, rfl⟩
    · exact ⟨rfl, rfl, rfl, rfl, rfl, rfl, rfl, rfl, rfl, rfl⟩
  case abandoned =>
    subst hi
    obtain rfl := exec_reset_next h
    exact ⟨rfl, rfl, rfl, rfl, rfl, rfl, rfl, rfl, fun j => ⟨Memory.read_nil j, Memory.read_nil j⟩⟩

end Sys2Proof.Machine
end

section
/-! PROOFS. Scope: the REQ of each bus access and what it decodes to (spec/30_encoding.md R80, R84, R88). -/

namespace Sys2Proof.Machine

/-! ### The fields of an assembled request -/

/-- R80's layout: INDEX in the low 28 bits, SPACE and DIR above it. -/
theorem getLsbD_mkReq (dir : Bool) (space : BitVec 3) (idx : Index) (i : Nat) :
    (mkReq dir space idx).getLsbD i =
      if i < 28 then idx.getLsbD i else if i - 28 < 3 then space.getLsbD (i - 28)
        else (BitVec.ofBool dir).getLsbD (i - 28 - 3) := by
  rw [← BitVec.getLsbD_append, ← BitVec.getLsbD_append]
  rfl

@[simp] theorem reqDir_mkReq (dir : Bool) (space : BitVec 3) (idx : Index) : reqDir (mkReq dir space idx) = dir :=
  (getLsbD_mkReq dir space idx 31).trans (by simp)

@[simp] theorem reqSpace_mkReq (dir : Bool) (space : BitVec 3) (idx : Index) :
    reqSpace (mkReq dir space idx) = space := by
  apply BitVec.eq_of_getLsbD_eq
  intro i hi
  simp [reqSpace, getLsbD_mkReq, hi]

@[simp] theorem reqIndex_mkReq (dir : Bool) (space : BitVec 3) (idx : Index) :
    reqIndex (mkReq dir space idx) = idx := by
  apply BitVec.eq_of_getLsbD_eq
  intro i hi
  simp [reqIndex, getLsbD_mkReq, hi]

/-! ### The requests as words -/

theorem reqWrMsg_eq_or (idx : Index) : reqWrMsg idx = 0x90000000#32 ||| idx.setWidth 32 :=
  Laws.TableRow.mkReq_or true spaceMsg idx

theorem reqRdMsg_eq_or (idx : Index) : reqRdMsg idx = 0x10000000#32 ||| idx.setWidth 32 :=
  Laws.TableRow.mkReq_or false spaceMsg idx

theorem reqRdDig_eq_or (idx : Index) : reqRdDig idx = 0x20000000#32 ||| idx.setWidth 32 :=
  Laws.TableRow.mkReq_or false spaceDig idx

/-! ### Their rows of R84 -/

theorem decode_reqRdStatus (cap : Nat) (data : HWord) : decode cap (.bus reqRdStatus data) = .ok .rdStatus := rfl

theorem decode_reqRdLen (cap : Nat) (data : HWord) : decode cap (.bus reqRdLen data) = .ok .rdLen := rfl

theorem decode_reqWrLen (cap : Nat) (data : HWord) : decode cap (.bus reqWrLen data) = .ok (.wrLen data) := rfl

theorem decode_reqWrMsg {cap : Nat} {idx : Index} (data : HWord) (hidx : idx.toNat < cap) :
    decode cap (.bus (reqWrMsg idx) data) = .ok (.wrMsg idx data) := by
  simp [decode, decodeBus, reqWrMsg, hidx]

theorem decode_reqRdMsg {cap : Nat} {idx : Index} (data : HWord) (hidx : idx.toNat < cap) :
    decode cap (.bus (reqRdMsg idx) data) = .ok (.rdMsg idx) := by
  simp [decode, decodeBus, reqRdMsg, hidx]

theorem decode_reqRdDig {cap : Nat} {idx : Index} (data : HWord) (hidx : idx.toNat < digCells) :
    decode cap (.bus (reqRdDig idx) data) = .ok (.rdDig idx) := by
  simp [decode, decodeBus, reqRdDig, spaceReg, spaceMsg, spaceDig, hidx]

end Sys2Proof.Machine
end

section
/-! PROOFS. Scope: the reads of STATUS, LEN, MSG and DIG (spec/48_host_operations.md R201, R207, R204, R205). -/

namespace Sys2Proof.Machine

variable {s t : State} {idx : Index}

/-! ### The values read -/

/-- The four fields of STATUS as digits of one number (R201). -/
theorem Status.toNat_word (f : Status) :
    f.word.toNat = (if f.busy then 1 else 0) + (if f.done then 2 else 0) + 16 * (algCode f.lalg).toNat := by
  obtain ⟨busy, done, lalg⟩ := f
  cases lalg with
  | sha256 => revert busy done; decide
  | sha384 => revert busy done; decide
  | sha512 => revert busy done; decide

theorem toNat_byteValue (b : Byte) : (byteValue b).toNat = b.toNat :=
  BitVec.toNat_setWidth_of_le (by decide)

/-! ### The answers in an unmarked state -/

theorem exec_rdStatus_of_none (hf : s.fault = none) : exec .rdStatus s = .next (s.withRead s.status.word) :=
  State.ifEnabled_of_none hf _

theorem exec_rdLen_of_none (hf : s.fault = none) : exec .rdLen s = .next (s.withRead s.len) :=
  State.ifEnabled_of_none hf _

theorem exec_rdMsg_of_unwritten (hf : s.fault = none) (hidx : idx.toNat < s.msgCap.val)
    (hr : s.msg.read idx.toNat = none) :
    exec (.rdMsg idx) s = s.raiseFault (.unwrittenMessageByte .rdMsg idx.toNat) :=
  (State.ifEnabled_of_none hf _).trans (by rw [if_neg (Nat.not_le.mpr hidx), hr])

theorem exec_rdMsg_of_written {b : Byte} (hf : s.fault = none) (hidx : idx.toNat < s.msgCap.val)
    (hr : s.msg.read idx.toNat = some b) : exec (.rdMsg idx) s = .next (s.withRead (byteValue b)) :=
  (State.ifEnabled_of_none hf _).trans (by rw [if_neg (Nat.not_le.mpr hidx), hr])

theorem exec_rdDig_of_not_done (hf : s.fault = none) (hidx : idx.toNat < digCells) (hd : s.status.done = false) :
    exec (.rdDig idx) s = s.raiseFault (.digestNotReady (reqRdDig idx)) :=
  (State.ifEnabled_of_none hf _).trans (by rw [if_neg (Nat.not_le.mpr hidx), if_pos hd])

theorem exec_rdDig_of_digestLen_le (hf : s.fault = none) (hidx : idx.toNat < digCells) (hd : s.status.done = true)
    (hl : digestLen s.status.lalg ≤ idx.toNat) :
    exec (.rdDig idx) s = s.raiseFault (.digestIndexOutOfRange (reqRdDig idx)) :=
  (State.ifEnabled_of_none hf _).trans (by rw [if_neg (Nat.not_le.mpr hidx), if_neg (by simp [hd]), if_pos hl])

theorem exec_rdDig_of_written {b : Byte} (hf : s.fault = none) (hidx : idx.toNat < digCells)
    (hd : s.status.done = true) (hl : idx.toNat < digestLen s.status.lalg) (hr : s.dig.read idx.toNat = some b) :
    exec (.rdDig idx) s = .next (s.withRead (byteValue b)) :=
  (State.ifEnabled_of_none hf _).trans
    (by rw [if_neg (Nat.not_le.mpr hidx), if_neg (by simp [hd]), if_neg (Nat.not_le.mpr hl), hr])

/-! ### What ends a digest's readability -/

/-- An operation that is no command and not RESET raises a fault, is a read, or writes LEN or one byte of MSG. -/
theorem exec_next_of_not_command {i : Instr} (hi : i ∉ [.hashSha256, .hashSha384, .hashSha512, .reset])
    (hw : ∀ word, i ≠ .wrCmd word) (h : exec i s = .next t) :
    (∃ m, t = s.withFault m) ∨ (∃ v, t = s.withRead v) ∨ (∃ v, t = s.withLen v) ∨ ∃ a v, t = s.withMsgByte a v := by
  cases i with
  | wrCmd data => exact absurd rfl (hw data)
  | hashSha256 => simp at hi
  | hashSha384 => simp at hi
  | hashSha512 => simp at hi
  | reset => simp at hi
  | rdStatus => cases (State.ifEnabled_next h).2; exact .inr (.inl ⟨_, rfl⟩)
  | rdLen => cases (State.ifEnabled_next h).2; exact .inr (.inl ⟨_, rfl⟩)
  | wrLen data => exact (exec_wrLen_next h).imp_right fun ⟨_, ht⟩ => .inr (.inl ⟨data, ht⟩)
  | wrMsg idx data => exact (exec_wrMsg_next h).imp_right fun ⟨_, ht⟩ => .inr (.inr ⟨_, _, ht⟩)
  | rdMsg idx => exact (exec_rdMsg_next h).imp_right .inl
  | rdDig idx => exact (exec_rdDig_next h).imp_right .inl

/-! ### The statements -/

/-- Settles O12: the value read is the word of STATUS, whose fields are the digits of R201's sum. -/
theorem readStatusReturnsStatus : Obligations.ReadStatusReturnsStatus := by
  intro s data hf
  refine ⟨decode_reqRdStatus _ data, s.status.word, exec_rdStatus_of_none hf, ?value⟩
  rw [Status.toNat_word]
  cases s.status.lalg with
  | sha256 => rfl
  | sha384 => rfl
  | sha512 => rfl

/-- Settles O13: a read of LEN has no guard but the fault mark. -/
theorem readLenReturnsLen : Obligations.ReadLenReturnsLen :=
  fun _ data hf => ⟨decode_reqRdLen _ data, exec_rdLen_of_none hf⟩

/-- Settles O14: the decoder answers an index below the capacity, and the cell's content decides between R204's fault
and its byte. -/
theorem readMsgReturnsByte : Obligations.ReadMsgReturnsByte := by
  intro s idx data hf hidx
  rw [← reqRdMsg_eq_or]
  exact ⟨decode_reqRdMsg data hidx, exec_rdMsg_of_unwritten hf hidx,
    fun b hr => ⟨byteValue b, toNat_byteValue b, exec_rdMsg_of_written hf hidx hr⟩⟩

/-- Settles O15: R205's checks in their order, and, for the other operations, the four effects none of which writes
STATUS or DIG. -/
theorem readDigestReturnsByte : Obligations.ReadDigestReturnsByte := by
  intro s idx data hf hidx
  rw [← reqRdDig_eq_or]
  refine ⟨decode_reqRdDig data hidx, fun hd => ⟨_, rfl, exec_rdDig_of_not_done hf hidx hd⟩,
    fun hd hl => ⟨_, rfl, exec_rdDig_of_digestLen_le hf hidx hd hl⟩,
    fun hd hl b hr => ⟨byteValue b, toNat_byteValue b, exec_rdDig_of_written hf hidx hd hl hr⟩, fun i t hi hw h => ?kept⟩
  rcases exec_next_of_not_command hi hw h with ⟨m, rfl⟩ | ⟨v, rfl⟩ | ⟨v, rfl⟩ | ⟨a, v, rfl⟩
  · exact ⟨rfl, rfl⟩
  · exact ⟨rfl, rfl⟩
  · exact ⟨rfl, rfl⟩
  · exact ⟨rfl, rfl⟩

end Sys2Proof.Machine
end

section
/-! PROOFS. Scope: the writes of LEN and MSG, and RESET (spec/48_host_operations.md R202, R203, R206,
spec/70_reset_and_hazards.md R400). -/

namespace Sys2Proof.Machine

variable {s : State} {idx : Index} {data : HWord}

/-! ### The fields of a byte's DATA (R83) -/

theorem dataHigh_eq_zero_iff (data : HWord) : dataHigh data = 0 ↔ data.toNat < 256 := by
  have high : (dataHigh data).toNat = data.toNat / 256 := by
    simp [dataHigh, Nat.shiftRight_eq_div_pow]
    omega
  rw [← BitVec.toNat_inj, high]
  simp

theorem dataByte_eq_ofNat (data : HWord) : dataByte data = BitVec.ofNat 8 data.toNat := by
  apply BitVec.eq_of_toNat_eq
  simp [dataByte]

/-! ### The answers in an unmarked state -/

theorem exec_wrLen_of_idle (hf : s.fault = none) (hb : s.status.busy = false) :
    exec (.wrLen data) s = .next (s.withLen data) :=
  (State.ifEnabled_of_none hf _).trans (if_neg (by simp [hb]))

theorem exec_wrLen_of_busy (hf : s.fault = none) (hb : s.status.busy = true) :
    exec (.wrLen data) s = s.raiseFault (.inputWriteWhileBusy reqWrLen data) :=
  (State.ifEnabled_of_none hf _).trans (if_pos hb)

theorem exec_wrMsg_of_data_ge (hf : s.fault = none) (hidx : idx.toNat < s.msgCap.val) (hd : 256 ≤ data.toNat) :
    exec (.wrMsg idx data) s = s.raiseFault (.dataOutOfRange (reqWrMsg idx) data) := by
  have high : dataHigh data ≠ 0 := fun h => Nat.not_lt.mpr hd ((dataHigh_eq_zero_iff data).mp h)
  exact (State.ifEnabled_of_none hf _).trans (by rw [if_neg (Nat.not_le.mpr hidx), if_pos high])

theorem exec_wrMsg_of_busy (hf : s.fault = none) (hidx : idx.toNat < s.msgCap.val) (hd : data.toNat < 256)
    (hb : s.status.busy = true) :
    exec (.wrMsg idx data) s = s.raiseFault (.inputWriteWhileBusy (reqWrMsg idx) data) := by
  have high : ¬ dataHigh data ≠ 0 := not_not.mpr ((dataHigh_eq_zero_iff data).mpr hd)
  exact (State.ifEnabled_of_none hf _).trans (by rw [if_neg (Nat.not_le.mpr hidx), if_neg high, if_pos hb])

theorem exec_wrMsg_of_idle (hf : s.fault = none) (hidx : idx.toNat < s.msgCap.val) (hd : data.toNat < 256)
    (hb : s.status.busy = false) :
    exec (.wrMsg idx data) s = .next (s.withMsgByte idx.toNat (dataByte data)) := by
  have high : ¬ dataHigh data ≠ 0 := not_not.mpr ((dataHigh_eq_zero_iff data).mpr hd)
  exact (State.ifEnabled_of_none hf _).trans
    (by rw [if_neg (Nat.not_le.mpr hidx), if_neg high, if_neg (by simp [hb])])

theorem exec_reset_of_none (hf : s.fault = none) : exec .reset s = .next s.afterReset :=
  State.ifEnabled_of_none hf _

/-! ### STATUS and the datapath after RESET (R400) -/

theorem State.afterReset_status_word : s.afterReset.status.word = 0x00000000#32 :=
  show Status.word { busy := false, done := false, lalg := .sha256 } = 0x00000000#32 by decide

theorem State.afterReset_engine_sha256Core (hk : s.kind = .sha256Core) :
    s.afterReset.engine = .w32 { hash := none, work := none, sched := none, block := none } :=
  congrArg Engine.unset hk

theorem State.afterReset_engine_sha512Core (hk : s.kind = .sha512Core) :
    s.afterReset.engine = .w64 { hash := none, work := none, sched := none, block := none } :=
  congrArg Engine.unset hk

/-! ### The statements -/

/-- Settles O17: BUSY alone decides between the store and the fault. -/
theorem writeLenStoresAnyValue : Obligations.WriteLenStoresAnyValue :=
  fun _ data hf => ⟨decode_reqWrLen _ data, exec_wrLen_of_idle hf, exec_wrLen_of_busy hf⟩

/-- Settles O18: R203's checks in their order, and the new MSG is the old one with the byte written. -/
theorem writeMsgStoresOneByte : Obligations.WriteMsgStoresOneByte := by
  intro s idx data hf hidx
  refine ⟨reqWrMsg idx, reqWrMsg_eq_or idx, decode_reqWrMsg data hidx, exec_wrMsg_of_data_ge hf hidx,
    exec_wrMsg_of_busy hf hidx, fun hd hb => ⟨s.msg.write idx.toNat (dataByte data),
      exec_wrMsg_of_idle hf hidx hd hb, fun j => ?cells⟩⟩
  rw [Memory.read_write, dataByte_eq_ofNat]

/-- Settles O26: the guard answers in a marked state, and otherwise RESET answers the reset state of the same kind and
capacity. -/
theorem resetRestoresResetState : Obligations.ResetRestoresResetState := by
  refine ⟨fun s m hm => State.ifEnabled_of_some hm _, fun s hf => ⟨s.afterReset, exec_reset_of_none hf, ?_⟩⟩
  exact ⟨rfl, State.afterReset_status_word, rfl, rfl, Memory.read_nil, Memory.read_nil, State.afterReset_engine_sha256Core,
    State.afterReset_engine_sha512Core, rfl, rfl, rfl, rfl, rfl, s.afterReset_kind, rfl⟩

end Sys2Proof.Machine
end

section
/-! PROOFS. Scope: the model fault's mark and the faults of the command word, of writes during a job and of LEN
(spec/60_exceptions.md R300, R304, R305, R306). -/

namespace Sys2Proof.Machine

variable {s t : State} {alg : Alg} {data : HWord}

/-! ### The mark (R300) -/

/-- Every meaning is guarded by the fault mark. -/
theorem exec_eq_ifEnabled (i : Instr) (s : State) : ∃ r, exec i s = s.ifEnabled r := by
  cases i with
  | wrCmd data => exact ⟨_, rfl⟩
  | hashSha256 => exact ⟨_, rfl⟩
  | hashSha384 => exact ⟨_, rfl⟩
  | hashSha512 => exact ⟨_, rfl⟩
  | rdStatus => exact ⟨_, rfl⟩
  | wrLen data => exact ⟨_, rfl⟩
  | rdLen => exact ⟨_, rfl⟩
  | wrMsg idx data => exact ⟨_, rfl⟩
  | rdMsg idx => exact ⟨_, rfl⟩
  | rdDig idx => exact ⟨_, rfl⟩
  | reset => exact ⟨_, rfl⟩

theorem exec_of_marked {m : FaultMark} (i : Instr) (hm : s.fault = some m) : exec i s = .fault (.modelFault m) := by
  obtain ⟨r, hr⟩ := exec_eq_ifEnabled i s
  rw [hr, State.ifEnabled_of_some hm]

theorem step_of_marked {m : FaultMark} (hm : s.fault = some m) : step s = .fault (.modelFault m) := by
  rw [step, hm]

/-- The one effect of an operation that marks an unmarked state is the mark. -/
theorem HostEffect.eq_withFault {m : FaultMark} (h : HostEffect s t) (hf : s.fault = none) (hm : t.fault = some m) :
    t = s.withFault m := by
  cases h with
  | marked m' => cases hm; rfl
  | didRead v => simp [hf] at hm
  | wroteLen v idle => simp [hf] at hm
  | wroteMsg a v idle inCap => simp [hf] at hm
  | started alg g acc idle fits written init => simp [hf] at hm
  | wasReset => simp at hm

/-- Settles O10: of the effects an operation can have only the fault's sets the mark, and the guard of every operation
and of the step answers in a marked state. -/
theorem modelFaultIsPermanent : Obligations.ModelFaultIsPermanent :=
  ⟨fun _ _ _ _ hf h hm => (exec_next h).2.eq_withFault hf hm, fun i _ _ hm => ⟨exec_of_marked i hm, step_of_marked hm⟩⟩

/-! ### Reserved commands (R304) -/

/-- R81: a command word is its three fields. -/
theorem cmdFields_append (data : HWord) : cmdRsv data ++ cmdAlg data ++ cmdOp data = data := by
  have high : cmdRsv data ++ cmdAlg data = data.extractLsb' 4 28 :=
    BitVec.extractLsb'_append_extractLsb'_eq_extractLsb' rfl
  have all : data.extractLsb' 4 28 ++ cmdOp data = data.extractLsb' 0 32 :=
    BitVec.extractLsb'_append_extractLsb'_eq_extractLsb' rfl
  rw [high, all, BitVec.extractLsb'_eq_self]

/-- The command words with OP = HASH and no reserved bit are the four that the selector tells apart. -/
theorem mem_of_cmdRsv_of_cmdOp (hrsv : cmdRsv data = 0) (hop : cmdOp data = opHash) :
    data ∈ [0x00000001#32, 0x00000011#32, 0x00000021#32, 0x00000031#32] := by
  have words : ∀ sel : BitVec 2,
      (0 : BitVec 26) ++ sel ++ opHash ∈ [0x00000001#32, 0x00000011#32, 0x00000021#32, 0x00000031#32] := by decide
  rw [← cmdFields_append data, hrsv, hop]
  exact words (cmdAlg data)

/-- Settles O20: a word with neither of R85's two defects would be one of the four excluded. -/
theorem reservedCommandsFault : Obligations.ReservedCommandsFault := by
  intro s data hf hdata
  rcases s.writeCommand_cases data with ⟨-, hw⟩ | ⟨hrsv, hop, -⟩
  · exact (State.ifEnabled_of_none hf _).trans hw
  · exact absurd (mem_of_cmdRsv_of_cmdOp hrsv hop) hdata

/-! ### Commands during a job, and a LEN above the capacity (R305, R306) -/

theorem State.acceptHash_of_busy (data : HWord) (acc : accepts s.kind alg = true) (busy : s.status.busy = true) :
    s.acceptHash data alg = s.raiseFault (.commandWhileBusy data) := by
  rcases s.acceptHash_cases data alg with
    ⟨hacc, -⟩ | ⟨-, -, hfault⟩ | ⟨-, idle, -⟩ | ⟨-, idle, -⟩ | ⟨-, idle, -⟩
  · simp [acc] at hacc
  · exact hfault
  · simp [busy] at idle
  · simp [busy] at idle
  · simp [busy] at idle

theorem State.acceptHash_of_msgCap_lt_len (data : HWord) (acc : accepts s.kind alg = true)
    (idle : s.status.busy = false) (big : s.msgCap.val < s.len.toNat) :
    s.acceptHash data alg = s.raiseFault (.lengthExceedsCapacity s.len) := by
  rcases s.acceptHash_cases data alg with
    ⟨hacc, -⟩ | ⟨-, busy, -⟩ | ⟨-, -, -, hfault⟩ | ⟨-, -, fits, -⟩ | ⟨-, -, fits, -⟩
  · simp [acc] at hacc
  · simp [idle] at busy
  · exact hfault
  · omega
  · omega

/-- Settles O22: both encodings of an accepted command end at acceptance's check of BUSY, and WR_LEN and, its index and
DATA being in range, WR_MSG at their own. -/
theorem writesWhileBusyFault : Obligations.WritesWhileBusyFault := by
  intro s hf busy
  have command : ∀ (data : HWord) (alg : Alg), accepts s.kind alg = true →
      s.ifEnabled (s.acceptHash data alg) = .next { s with fault := some (.commandWhileBusy data) } :=
    fun data _ acc => (State.ifEnabled_of_none hf _).trans (State.acceptHash_of_busy data acc busy)
  refine ⟨fun hk => ?sha256, fun hk => ?sha384, fun hk => ?sha512, fun data => exec_wrLen_of_busy hf busy,
    fun idx data hidx hd => ?wrMsg⟩
  case sha256 =>
    have faults := command cmdSha256 .sha256 (hk ▸ rfl)
    exact List.forall_mem_cons.mpr ⟨faults, List.forall_mem_singleton.mpr faults⟩
  case sha384 =>
    have faults := command cmdSha384 .sha384 (hk ▸ rfl)
    exact List.forall_mem_cons.mpr ⟨faults, List.forall_mem_singleton.mpr faults⟩
  case sha512 =>
    have faults := command cmdSha512 .sha512 (hk ▸ rfl)
    exact List.forall_mem_cons.mpr ⟨faults, List.forall_mem_singleton.mpr faults⟩
  case wrMsg =>
    rw [← reqWrMsg_eq_or]
    exact exec_wrMsg_of_busy hf hidx hd busy

/-- Settles O23: an accepted command on an idle core meets the check of LEN before the walk over MSG. -/
theorem oversizeLengthFaults : Obligations.OversizeLengthFaults := by
  intro s i alg hi hf acc idle big
  obtain ⟨data, hexec⟩ := exec_of_mem_hashEncodings hi s
  rw [hexec, State.ifEnabled_of_none hf]
  exact State.acceptHash_of_msgCap_lt_len data acc idle big

end Sys2Proof.Machine
end

section
/-! PROOFS. Scope: the machine right after reset (spec/70_reset_and_hazards.md R400). -/

namespace Sys2Proof.Machine

/-- R400 gives power-on and RESET the same values: a RESET in the reset state changes nothing. -/
theorem State.afterReset_reset : State.reset.afterReset = State.reset := rfl

/-- Settles O27: the reset state is what RESET makes of it, and every clause is a law of the state after RESET. -/
theorem resetStateIsIdle : Obligations.ResetStateIsIdle := by
  unfold Obligations.ResetStateIsIdle
  rw [← State.afterReset_reset]
  exact ⟨State.afterReset_status_word, State.afterReset_len _, State.afterReset_seq _, State.afterReset_jalg _,
    State.afterReset_fault _, Memory.read_nil, Memory.read_nil, State.afterReset_blockIdx _,
    State.afterReset_blockCount _, State.afterReset_round _, State.afterReset_engine _⟩

end Sys2Proof.Machine
end

section
/-! PROOFS. Scope: decode and encode agree, and R84's table read on the number of the REQ (spec/30_encoding.md R80,
R84, R85). -/

namespace Sys2Proof.Machine

/-! ### The fields of a request (R80) -/

/-- R80: a request is its three fields. -/
theorem mkReq_fields (req : HWord) : mkReq (reqDir req) (reqSpace req) (reqIndex req) = req := by
  apply BitVec.eq_of_getLsbD_eq
  intro i hi
  rw [getLsbD_mkReq]
  split
  · next low => simp [reqIndex, low]
  split
  · next high space => simp [reqSpace, space, Nat.add_sub_cancel' (Nat.not_lt.mp high)]
  · obtain rfl : i = 31 := by omega
    simp [reqDir]

theorem fields_eq_iff (req : HWord) (dir : Bool) (space : BitVec 3) (idx : Index) :
    (reqDir req = dir ∧ reqSpace req = space ∧ reqIndex req = idx) ↔ req = mkReq dir space idx := by
  constructor
  · rintro ⟨rfl, rfl, rfl⟩
    exact (mkReq_fields req).symm
  · rintro rfl
    simp

theorem reqIndex_eq_ofNat (req : HWord) : reqIndex req = BitVec.ofNat 28 (req.toNat % 2 ^ 28) := by
  apply BitVec.eq_of_toNat_eq
  simp [reqIndex]

theorem toNat_reqIndex (req : HWord) : (reqIndex req).toNat = req.toNat % 2 ^ 28 := by
  simp [reqIndex]

theorem toNat_reqSpace (req : HWord) : (reqSpace req).toNat = req.toNat / 2 ^ 28 % 8 := by
  simp [reqSpace, Nat.shiftRight_eq_div_pow]

theorem toNat_reqDir (req : HWord) : (reqDir req).toNat = req.toNat / 2 ^ 31 := by
  have := req.isLt
  rw [reqDir, BitVec.getLsbD, Nat.toNat_testBit]
  omega

/-- DIR and SPACE are the four bits above INDEX. -/
theorem dir_space_eq_iff (req : HWord) (dir : Bool) (space : BitVec 3) :
    (reqDir req = dir ∧ reqSpace req = space) ↔ req.toNat / 2 ^ 28 = 8 * dir.toNat + space.toNat := by
  have hd := toNat_reqDir req
  have hs := toNat_reqSpace req
  have lt : space.toNat < 8 := space.isLt
  have inj : ∀ a b : Bool, a.toNat = b.toNat → a = b := by decide
  rw [← BitVec.toNat_inj, hs]
  constructor
  · rintro ⟨rfl, hspace⟩
    omega
  · intro h
    exact ⟨inj _ _ (by omega), by omega⟩

/-! ### Decode of encode -/

theorem decode_reqWrCmd (cap : Nat) (data : HWord) : decode cap (.bus reqWrCmd data) = .ok (.wrCmd data) := rfl

/-- Settles O4: each encoded word is in its own row of R84 or R85, and for the three rows with an index well-formedness
is the row's bound. -/
theorem decodeOfEncode : Obligations.DecodeOfEncode := by
  intro cap i wf
  cases i with
  | wrCmd data => exact decode_reqWrCmd cap data
  | hashSha256 => rfl
  | hashSha384 => rfl
  | hashSha512 => rfl
  | rdStatus => exact decode_reqRdStatus cap 0
  | wrLen data => exact decode_reqWrLen cap data
  | rdLen => exact decode_reqRdLen cap 0
  | wrMsg idx data => exact decode_reqWrMsg data (of_decide_eq_true wf)
  | rdMsg idx => exact decode_reqRdMsg 0 (of_decide_eq_true wf)
  | rdDig idx => exact decode_reqRdDig 0 (of_decide_eq_true wf)
  | reset => rfl

/-! ### Encode of decode -/

/-- A bus access that decodes to an operation carries the REQ that the encoder gives the operation, which is well
formed. -/
theorem encode_of_decode_bus {cap : Nat} {req data : HWord} {i : Instr} (h : decode cap (.bus req data) = .ok i) :
    WellFormed cap i = true ∧ ∃ data', encode i = .bus req data' := by
  have fields := mkReq_fields req
  simp only [decode, decodeBus] at h
  split at h
  · next row => cases h; exact ⟨rfl, data, by rw [(fields_eq_iff ..).mp row]; rfl⟩
  split at h
  · next row => cases h; exact ⟨rfl, 0, by rw [(fields_eq_iff ..).mp row]; rfl⟩
  split at h
  · next row => cases h; exact ⟨rfl, data, by rw [(fields_eq_iff ..).mp row]; rfl⟩
  split at h
  · next row => cases h; exact ⟨rfl, 0, by rw [(fields_eq_iff ..).mp row]; rfl⟩
  split at h
  · next row =>
    obtain ⟨hdir, hspace, hidx⟩ := row
    cases h; exact ⟨decide_eq_true hidx, data, by rw [encode, reqWrMsg, ← hdir, ← hspace, fields]⟩
  split at h
  · next row =>
    obtain ⟨hdir, hspace, hidx⟩ := row
    cases h; exact ⟨decide_eq_true hidx, 0, by rw [encode, reqRdMsg, ← hdir, ← hspace, fields]⟩
  split at h
  · next row =>
    obtain ⟨hdir, hspace, hidx⟩ := row
    cases h; exact ⟨decide_eq_true hidx, 0, by rw [encode, reqRdDig, ← hdir, ← hspace, fields]⟩
  · cases h

/-- Settles O5: the REQ of an access is the one that the encoder gives the decoded operation, so the operation fixes
it. -/
theorem requestsNameOperationsUniquely : Obligations.RequestsNameOperationsUniquely := by
  intro cap i req data h
  obtain ⟨wf, d, henc⟩ := encode_of_decode_bus h
  refine ⟨wf, fun req' data' h' => ?_⟩
  obtain ⟨-, d', henc'⟩ := encode_of_decode_bus h'
  exact (HostOp.bus.inj (henc'.symm.trans henc)).1

/-! ### R84's table on the number of the REQ -/

theorem decode_bus_eq_table (cap : Nat) (req data : HWord) :
    decode cap (.bus req data) =
      if req.toNat = 0x80000000 then .ok (.wrCmd data)
      else if req.toNat = 0x00000001 then .ok .rdStatus
      else if req.toNat = 0x80000002 then .ok (.wrLen data)
      else if req.toNat = 0x00000002 then .ok .rdLen
      else if req.toNat / 2 ^ 28 = 0x9 ∧ req.toNat % 2 ^ 28 < cap then
        .ok (.wrMsg (BitVec.ofNat 28 (req.toNat % 2 ^ 28)) data)
      else if req.toNat / 2 ^ 28 = 0x1 ∧ req.toNat % 2 ^ 28 < cap then .ok (.rdMsg (BitVec.ofNat 28 (req.toNat % 2 ^ 28)))
      else if req.toNat / 2 ^ 28 = 0x2 ∧ req.toNat % 2 ^ 28 < 64 then .ok (.rdDig (BitVec.ofNat 28 (req.toNat % 2 ^ 28)))
      else .error (.illegalAccess req) := by
  have exact_row (dir : Bool) (space : BitVec 3) (idx : Index) :
      (reqDir req = dir ∧ reqSpace req = space ∧ reqIndex req = idx) ↔ req.toNat = (mkReq dir space idx).toNat :=
    (fields_eq_iff req dir space idx).trans BitVec.toNat_inj.symm
  have index_row (dir : Bool) (space : BitVec 3) (bound : Nat) :
      (reqDir req = dir ∧ reqSpace req = space ∧ (reqIndex req).toNat < bound) ↔
        req.toNat / 2 ^ 28 = 8 * dir.toNat + space.toNat ∧ req.toNat % 2 ^ 28 < bound := by
    rw [← and_assoc, dir_space_eq_iff, toNat_reqIndex]
  unfold decode decodeBus
  simp only [exact_row, index_row]
  rw [reqIndex_eq_ofNat]
  rfl

/-- R84's last row is the only rejection. -/
theorem eq_illegalAccess_of_decode_bus {cap : Nat} {req data : HWord} {err : DecodeError}
    (h : decode cap (.bus req data) = .error err) : err = .illegalAccess req := by
  rw [decode_bus_eq_table] at h
  repeat' split at h
  all_goals cases h
  rfl

/-- Settles O1: the words are those that the encoder gives the operations, and the last two have an index of the
capacity and of 64. -/
theorem specWordsDecode : Obligations.SpecWordsDecode := by
  intro data
  exact ⟨decode_reqWrCmd 256 data, decode_reqRdStatus 256 data, decode_reqWrLen 256 data, decode_reqRdLen 256 data,
    decode_reqWrMsg data (idx := 255#28) (by decide), decode_reqRdMsg data (idx := 0#28) (by decide),
    decode_reqRdDig data (idx := 63#28) (by decide), decodeOfEncode 256 .hashSha256 rfl,
    decodeOfEncode 256 .hashSha384 rfl, decodeOfEncode 256 .hashSha512 rfl, decodeOfEncode 256 .reset rfl,
    decode_bus_eq_table 256 0x90000100#32 data, decode_bus_eq_table 256 0x20000040#32 data⟩

end Sys2Proof.Machine
end

section
/-! PROOFS. Scope: what a step does with the turn it takes (spec/20_memory.md R72, spec/30_encoding.md R84,
spec/60_exceptions.md R303). -/

namespace Sys2Proof.Machine

variable {s : State} {rest : List Event}

/-! ### A turn of the host, taken from the list of turns (log entry 2) -/

theorem step_of_turn {ev : Event} (hf : s.fault = none) (hin : s.input = ev :: rest) :
    step s = (s.withInput rest).turn ev := by
  simp only [step, hf, State.nextTurn, hin]

theorem step_of_decode_ok {op : HostOp} {i : Instr} (hf : s.fault = none)
    (hin : s.input = .host op :: rest) (hi : decode s.msgCap.val op = .ok i) :
    step s = exec i (s.withInput rest) := by
  rw [step_of_turn hf hin, State.turn, State.hostTurn, State.withInput_msgCap, hi]

theorem step_of_decode_error {req data : HWord} {err : DecodeError}
    (hf : s.fault = none) (hin : s.input = .host (.bus req data) :: rest)
    (herr : decode s.msgCap.val (.bus req data) = .error err) :
    step s = (s.withInput rest).raiseFault (.illegalAccess req) := by
  obtain rfl := eq_illegalAccess_of_decode_bus herr
  rw [step_of_turn hf hin, State.turn, State.hostTurn, State.withInput_msgCap, herr]
  rfl

/-- Settles O7: the turn is taken off and the decoded operation runs. -/
theorem stepRunsDecodedOperation : Obligations.StepRunsDecodedOperation :=
  fun _ _ _ _ hf hin hi => step_of_decode_ok hf hin hi

theorem step_of_no_turn (hf : s.fault = none) (hin : s.input = []) : step s = s.coreRun := by
  simp only [step, hf, State.nextTurn, hin]

theorem State.coreMicro_of_idle (hq : s.seq = .idle) : s.coreMicro = .next s := by
  simp only [State.coreMicro, hq]

theorem State.coreRun_of_idle (hq : s.seq = .idle) : s.coreRun = .next s := by
  simp only [State.coreRun, hq]

/-- Settles O8: a turn of the core is its step, which an idle core passes, and so is the end of the turns. -/
theorem stepTakesCoreTurn : Obligations.StepTakesCoreTurn := by
  intro s rest hf
  refine ⟨fun hin => step_of_turn hf hin, fun hin => step_of_turn hf hin, fun hq hin => ?_,
    fun hin _ => step_of_no_turn hf hin, fun hin hq => (step_of_no_turn hf hin).trans (State.coreRun_of_idle hq)⟩
  rcases hin with hin | hin
  · exact (step_of_turn hf hin).trans (State.coreMicro_of_idle (s := s.withInput rest) hq)
  · exact (step_of_turn hf hin).trans (State.coreRun_of_idle (s := s.withInput rest) hq)

/-- Settles O9: the placed operation is the first turn, and without it the turns are those of the state before. -/
theorem placedWordRunsNext : Obligations.PlacedWordRunsNext := by
  intro s nbits w op i hf hop hi
  have placed : s.withFetchWord nbits w = s.placeOp op := by rw [State.withFetchWord, hop]
  rw [placed]
  exact step_of_decode_ok (s := s.placeOp op) (rest := s.input) hf rfl hi

/-! ### The turn of a rejected access (R84, R303) -/

/-- Settles O2: R84's table on numbers, the turn of a rejected access, and R85's three words read on their numbers. -/
theorem busDecodeFollowsTable : Obligations.BusDecodeFollowsTable := by
  refine ⟨decode_bus_eq_table, fun s req data rest err hf hin herr => step_of_decode_error hf hin herr,
    fun cap word => ?cmd⟩
  have word_eq (v : HWord) : word = v ↔ word.toNat = v.toNat := BitVec.toNat_inj.symm
  simp only [decode, decodeCmd, word_eq, apply_ite Except.ok]
  rfl

/-- Settles O3: with the fields of R303 no row of R84's table but the last applies. -/
theorem illegalAccessesFault : Obligations.IllegalAccessesFault := by
  rintro s req data rest dir space idx rfl rfl rfl hfields hf hin
  have herr : decode s.msgCap.val (.bus req data) = .error (.illegalAccess req) := by
    have := req.isLt
    rw [decode_bus_eq_table]
    repeat rw [if_neg (by omega)]
  exact step_of_decode_error hf hin herr

end Sys2Proof.Machine
end

section
/-! PROOFS. Scope: what a turn of the core does to STATUS and the phase, and the invariants of STATUS and JALG
(spec/10_state.md R25, R31). -/

namespace Sys2Proof.Machine

variable {s t u : State}

/-! ### The loop of CoreRun on STATUS, DIG and the phase -/

/-- `t` has the STATUS and the DIG of `s`, and its job is not at its end: what every part of a job but DIGEST keeps. -/
structure State.KeepsJob (s t : State) : Prop where
  status : t.status = s.status
  dig : t.dig = s.dig
  underWay : s.seq ≠ .idle → t.seq ≠ .idle

theorem State.KeepsJob.refl (s : State) : s.KeepsJob s := ⟨rfl, rfl, id⟩

theorem State.KeepsJob.trans (a : s.KeepsJob t) (b : t.KeepsJob u) : s.KeepsJob u :=
  ⟨b.status.trans a.status, b.dig.trans a.dig, b.underWay ∘ a.underWay⟩

theorem State.mdLoad_keepsJob (h : s.mdLoad = some t) : s.KeepsJob t := by
  obtain ⟨_, _, _, -, -, -, rfl⟩ := State.mdLoad_eq_some.mp h
  exact ⟨rfl, rfl, id⟩

theorem State.mdRound_keepsJob (h : s.mdRound = some t) : s.KeepsJob t := by
  obtain ⟨_, _, -, -, rfl⟩ := State.mdRound_eq_some.mp h
  exact ⟨rfl, rfl, id⟩

theorem State.mdChain_keepsJob (h : s.mdChain = some t) : s.KeepsJob t := by
  obtain ⟨_, _, _, -, -, -, rfl⟩ := State.mdChain_eq_some.mp h
  refine ⟨rfl, rfl, fun _ => ?_⟩
  rw [State.blockChained_seq]
  split <;> decide

theorem State.mdRounds_keepsJob {k : Nat} (h : State.mdRounds k s = some t) : s.KeepsJob t := by
  induction k generalizing s with
  | zero => cases h; exact .refl _
  | succ k ih =>
    obtain ⟨v, hv, h⟩ := Option.bind_eq_some_iff.mp h
    exact (State.mdRound_keepsJob hv).trans (ih h)

theorem State.mdBlocks_keepsJob {k : Nat} (h : State.mdBlocks k s = some t) : s.KeepsJob t := by
  induction k generalizing s with
  | zero => cases h; exact .refl _
  | succ k ih =>
    obtain ⟨v, hload, h⟩ := Option.bind_eq_some_iff.mp h
    obtain ⟨x, hblock, h⟩ := Option.bind_eq_some_iff.mp h
    obtain ⟨y, hrounds, hchain⟩ := Option.bind_eq_some_iff.mp hblock
    exact (State.mdLoad_keepsJob hload).trans
      ((State.mdRounds_keepsJob hrounds).trans ((State.mdChain_keepsJob hchain).trans (ih h)))

/-! ### What a turn of the core does to STATUS and the phase -/

/-- A turn of the core finds no job, goes on with it, or ends it. -/
inductive CoreEffect (s : State) : State → Prop where
  | idle (hq : s.seq = .idle) : CoreEffect s s
  | goesOn {t : State} (hq : s.seq ≠ .idle) (status : t.status = s.status) (hq' : t.seq ≠ .idle) : CoreEffect s t
  | ends {t : State} (hq : s.seq ≠ .idle) (status : t.status = s.status.complete) (hq' : t.seq = .idle) : CoreEffect s t

theorem State.KeepsJob.coreEffect (h : s.KeepsJob t) (hq : s.seq ≠ .idle) : CoreEffect s t :=
  .goesOn hq h.status (h.underWay hq)

theorem State.KeepsJob.coreEffect_digest (h : s.KeepsJob u) (hq : s.seq ≠ .idle) (hd : u.digest = some t) :
    CoreEffect s t := by
  obtain ⟨_, -, rfl⟩ := State.digest_eq_some.mp hd
  exact .ends hq (congrArg Status.complete h.status) rfl

theorem State.coreMicro_effect (h : s.coreMicro = .next t) : CoreEffect s t := by
  rcases State.coreMicro_next h with
    ⟨hq, rfl⟩ | ⟨hq, -, h⟩ | ⟨hq, -, -, h⟩ | ⟨hq, -, -, h⟩ | ⟨hq, -, h⟩
  · exact .idle hq
  · exact (State.mdLoad_keepsJob h).coreEffect (by simp [hq])
  · exact (State.mdRound_keepsJob h).coreEffect (by simp [hq])
  · exact (State.mdChain_keepsJob h).coreEffect (by simp [hq])
  · exact (State.KeepsJob.refl s).coreEffect_digest hq h

theorem State.coreRun_effect (h : s.coreRun = .next t) : CoreEffect s t := by
  rcases State.coreRun_next h with ⟨hq, rfl⟩ | ⟨hq, _, _, _, -, -, hu, hd⟩
  · exact .idle hq
  · exact (State.mdBlocks_keepsJob hu).coreEffect_digest hq hd

/-! ### The invariants of STATUS and JALG (R25, R31) -/

theorem State.StatusOk.seq_idle (hs : s.StatusOk) (idle : s.status.busy = false) : s.seq = .idle := by
  by_contra hq
  simp [hs.busyIff.mpr hq] at idle

theorem State.StatusOk.core (hs : s.StatusOk) (frame : s.CoreFrame t) (h : CoreEffect s t) : t.StatusOk := by
  have accepted : t.blockCount.isSome = true → accepts t.kind t.status.lalg = true := by
    rw [frame.blockCount, frame.kind, frame.lalg]
    exact hs.accepted
  have latched : t.jalg = t.status.lalg := by rw [frame.jalg, frame.lalg, hs.latched]
  cases h with
  | idle hq => exact hs
  | goesOn hq status hq' =>
    refine ⟨status ▸ hs.busyOrDone, ?_, latched, accepted, ?_⟩
    · rw [status]
      exact iff_of_true (hs.busyIff.mpr hq) hq'
    · rw [status, frame.blockCount]
      exact hs.wasAccepted
  | ends hq status hq' =>
    refine ⟨by simp [status], by simp [status, hq'], latched, accepted, fun _ => ?_⟩
    rw [frame.blockCount]
    exact hs.wasAccepted (.inl (hs.busyIff.mpr hq))

theorem State.resetOf_statusOk (k : CoreKind) (cap : MsgCap) (input : List Event) (reads : List HWord) :
    (State.resetOf k cap input reads).StatusOk where
  busyOrDone := fun h => Bool.false_ne_true h.1
  busyIff := iff_of_false Bool.false_ne_true (not_not.mpr rfl)
  latched := rfl
  accepted := fun h => absurd h Bool.false_ne_true
  wasAccepted := fun h => absurd (or_self_iff.mp h) Bool.false_ne_true

theorem State.StatusOk.host (hs : s.StatusOk) (h : HostEffect s t) : t.StatusOk := by
  cases h with
  | marked m => exact ⟨hs.busyOrDone, hs.busyIff, hs.latched, hs.accepted, hs.wasAccepted⟩
  | didRead v => exact ⟨hs.busyOrDone, hs.busyIff, hs.latched, hs.accepted, hs.wasAccepted⟩
  | wroteLen v idle => exact ⟨hs.busyOrDone, hs.busyIff, hs.latched, hs.accepted, hs.wasAccepted⟩
  | wroteMsg a v idle inCap => exact ⟨hs.busyOrDone, hs.busyIff, hs.latched, hs.accepted, hs.wasAccepted⟩
  | started alg g acc idle fits written init =>
    have hk : g.kind = s.kind := Engine.init_kind init
    refine ⟨by simp, by simp, rfl, fun _ => ?_, fun _ => rfl⟩
    exact (congrArg (accepts · alg) hk).trans acc
  | wasReset => exact State.resetOf_statusOk _ _ _ _

/-- Settles O50: a turn of the host has one of the effects above, and a turn of the core finds no job, goes on with one,
or ends one. -/
theorem stepKeepsStatusInvariants : Obligations.StepKeepsStatusInvariants := by
  intro s t hs h
  exact step_keeps (P := State.StatusOk)
    (input := fun _ _ hs => ⟨hs.busyOrDone, hs.busyIff, hs.latched, hs.accepted, hs.wasAccepted⟩)
    (host := fun _ _ hs h => hs.host h)
    (micro := fun _ _ hs h => hs.core (State.coreMicro_frame h) (State.coreMicro_effect h))
    (run := fun _ _ hs h => hs.core (State.coreRun_frame h) (State.coreRun_effect h)) h hs

end Sys2Proof.Machine
end

section
/-! PROOFS. Scope: what CoreRun answers, and the digest it leaves (spec/45_chaining_and_digest.md R174, R176, R177). -/

namespace Sys2Proof.Machine

variable {s t : State} {m : List Byte} {i n r : Nat}

/-! ### CoreRun from any place in a job (R177) -/

/-- `t` is what CoreRun answers from `s` in a job on the message `m`. -/
structure State.JobEnd (s : State) (m : List Byte) (t : State) : Prop where
  frame : s.CoreFrame t
  seq : t.seq = .idle
  status : t.status = s.status.complete
  dig : t.dig = s.dig.writeAll 0 (sha s.jalg m)
  blockIdx : t.blockIdx = s.blockCount

theorem State.JobAt.coreRun_eq (h : s.JobAt m i n r) (hq : s.seq ≠ .idle) :
    s.coreRun = Result.ofOption ((State.mdBlocks (n - i) s).bind State.digest) := by
  unfold State.coreRun
  rw [h.index, h.count]
  cases hs : s.seq with
  | idle => exact absurd hs hq
  | run => rfl
  | out => rfl

/-- The phase tells whether a block is left. -/
theorem State.JobAt.run_or_at_end (h : s.JobAt m i n r) (hq : s.seq ≠ .idle) :
    (s.seq = .run ∧ i < n) ∨ (s.seq = .out ∧ i = n ∧ s.loaded = false) := by
  cases hs : s.seq with
  | idle => exact absurd hs hq
  | run => exact .inl ⟨rfl, h.running hs⟩
  | out => exact .inr ⟨rfl, h.leaving hs⟩

/-- The loop of R177 comes to the state after the last block. -/
theorem State.JobAt.mdBlocks (h : s.JobAt m i n r) (hq : s.seq ≠ .idle) :
    ∃ u r', State.mdBlocks (n - i) s = some u ∧ u.JobAt m n n r' := by
  generalize hk : n - i = k
  induction k generalizing s i r with
  | zero =>
    rcases h.run_or_at_end hq with ⟨-, hlt⟩ | ⟨-, rfl, -⟩
    · omega
    · exact ⟨s, r, rfl, h⟩
  | succ k ih =>
    rcases h.run_or_at_end hq with ⟨hrun, hlt⟩ | ⟨-, rfl, -⟩
    · obtain ⟨v, hv, hchain, hjob, -⟩ := h.block hrun
      rw [hv]
      have underWay : v.seq ≠ .idle := (State.mdChain_keepsJob hchain).underWay hq
      exact ih hjob underWay (by omega)
    · omega

theorem State.JobAt.digest_jobEnd (h : s.JobAt m n n r) :
    ∃ t, s.digest = some t ∧ s.JobEnd m t :=
  ⟨_, h.digest, State.digest_frame h.digest, rfl, rfl, rfl, h.index.trans h.count.symm⟩

/-- CoreRun answers a next state, the end of the job. -/
theorem State.JobAt.coreRun (h : s.JobAt m i n r) (hq : s.seq ≠ .idle) :
    ∃ t, s.coreRun = .next t ∧ s.JobEnd m t := by
  obtain ⟨u, r', hu, hjob⟩ := h.mdBlocks hq
  obtain ⟨t, ht, hend⟩ := hjob.digest_jobEnd
  have keeps := State.mdBlocks_keepsJob hu
  have frame := State.mdBlocks_frame hu
  refine ⟨t, by rw [h.coreRun_eq hq, hu, Option.bind_some, ht]; rfl, frame.trans' hend.frame, hend.seq, ?_, ?_, ?_⟩
  · rw [hend.status, keeps.status]
  · rw [hend.dig, keeps.dig, frame.jalg]
  · rw [hend.blockIdx, frame.blockCount]

/-! ### The digest's length and place (R176, R174) -/

theorem length_hashMessage {w e : Nat} (c : WordConfig w e) (iv : Vector (BitVec w) 8) (m : List Byte) :
    (hashMessage c iv m).length = 8 * wordBytes w :=
  serialize_length _

theorem length_sha (alg : Alg) (m : List Byte) : (sha alg m).length = digestLen alg := by
  cases alg with
  | sha256 => exact List.length_take_of_le (by rw [length_hashMessage]; decide)
  | sha384 => exact List.length_take_of_le (by rw [length_hashMessage]; decide)
  | sha512 => exact List.length_take_of_le (by rw [length_hashMessage]; decide)

/-- Settles O47: a digest is `DL` bytes of the eight serialised words. -/
theorem digestLengthIsFixed : Obligations.DigestLengthIsFixed :=
  fun m => ⟨length_sha .sha256 m, length_sha .sha384 m, length_sha .sha512 m⟩

theorem Memory.read_writeAll_zero_of_lt (mem : Memory) {vs : List Byte} {j : Nat} (hj : j < vs.length) :
    (mem.writeAll 0 vs).read j = vs[j]? := by
  rw [Memory.read_writeAll, if_pos (by omega), Nat.sub_zero]

theorem Memory.read_writeAll_zero_of_le (mem : Memory) {vs : List Byte} {j : Nat} (hj : vs.length ≤ j) :
    (mem.writeAll 0 vs).read j = mem.read j := by
  rw [Memory.read_writeAll, if_neg (by omega)]

theorem State.JobEnd.read_digest (h : s.JobEnd m t) {j : Nat} (hj : j < digestLen s.jalg) :
    t.dig.read j = (sha s.jalg m)[j]? := by
  rw [h.dig, Memory.read_writeAll_zero_of_lt _ (by rwa [length_sha])]

theorem State.JobEnd.read_beyond (h : s.JobEnd m t) {j : Nat} (hj : digestLen s.jalg ≤ j) :
    t.dig.read j = s.dig.read j := by
  rw [h.dig, Memory.read_writeAll_zero_of_le _ (by rwa [length_sha])]

/-- Settles O53: the loop of R177 has a value in every state of a running job, and DIGEST after it writes the digest of
the job's message. -/
theorem coreRunComputesDigest : Obligations.CoreRunComputesDigest := by
  intro s m hinv hrun hm
  have hq : s.seq ≠ .idle := by simp [hrun]
  obtain ⟨m', i, n, r, hjob⟩ := hinv.job hq
  obtain rfl : m' = m := Option.some.inj (hjob.message.symm.trans hm)
  obtain ⟨t, ht, hend⟩ := hjob.coreRun hq
  obtain ⟨hcap, hkind, hlen, hmsg, hjalg, -, -, hfault, hinput, hreads⟩ := hend.frame
  exact ⟨t, ht, hend.seq, hend.status, fun j => hend.read_digest, fun j => hend.read_beyond, hend.blockIdx, hmsg, hlen,
    hjalg, hkind, hcap, hfault, hinput, hreads⟩

end Sys2Proof.Machine
end

section
/-! PROOFS. Scope: the invariant of the machine, at reset and along every step (spec/10_state.md R20, R31,
spec/20_memory.md R72, spec/70_reset_and_hazards.md R400). -/

namespace Sys2Proof.Machine

variable {s t : State} {m : List Byte} {i n r : Nat}

/-! ### The host's effects -/

/-- The digest of an accepted algorithm fits the cells the kind of core can write (R33). -/
theorem digestLen_le_digLimit {k : CoreKind} {alg : Alg} (h : accepts k alg = true) : digestLen alg ≤ digLimit k := by
  cases k with
  | sha256Core =>
    cases alg with
    | sha256 => decide
    | sha384 => cases h
    | sha512 => cases h
  | sha512Core =>
    cases alg with
    | sha256 => cases h
    | sha384 => decide
    | sha512 => decide

/-- The invariant does not speak of the mark, the host's turns and the host's reads. -/
theorem State.Inv.outside (h : s.Inv) (f : Option FaultMark) (l : List Event) (rs : List HWord) :
    ({ s with fault := f, input := l, reads := rs } : State).Inv where
  status := ⟨h.status.busyOrDone, h.status.busyIff, h.status.latched, h.status.accepted, h.status.wasAccepted⟩
  buffers := ⟨h.buffers.msgWf, h.buffers.msgIn, h.buffers.digWf, h.buffers.digIn, h.buffers.digestThere⟩
  job := fun hq => by
    obtain ⟨m, i, n, r, hjob⟩ := h.job hq
    obtain ⟨message, fits, index, count, roundIdx, blocks, roundLe, running, leaving, data⟩ := hjob
    exact ⟨m, i, n, r, message, fits, index, count, roundIdx, blocks, roundLe, running, leaving, data⟩

theorem State.resetOf_inv (k : CoreKind) (cap : MsgCap) (input : List Event) (reads : List HWord) :
    (State.resetOf k cap input reads).Inv where
  status := State.resetOf_statusOk k cap input reads
  buffers := ⟨Memory.wf_nil, fun _ h => absurd h List.not_mem_nil, Memory.wf_nil, fun _ h => absurd h List.not_mem_nil,
    fun h => absurd h Bool.false_ne_true⟩
  job := fun hq => absurd rfl hq

/-- Settles O49: no job runs, both buffers are empty, and no digest is there. -/
theorem invariantAtReset : Obligations.InvariantAtReset :=
  ⟨State.resetOf_inv _ _ _ _, State.resetOf_inv⟩

theorem State.Inv.host (hs : s.Inv) (h : HostEffect s t) : t.Inv := by
  have status := hs.status.host h
  cases h with
  | marked m => exact hs.outside (some m) s.input s.reads
  | didRead v => exact hs.outside s.fault s.input (v :: s.reads)
  | wroteLen v idle =>
    exact ⟨status, ⟨hs.buffers.msgWf, hs.buffers.msgIn, hs.buffers.digWf, hs.buffers.digIn, hs.buffers.digestThere⟩,
      fun hq => absurd (hs.status.seq_idle idle) hq⟩
  | wroteMsg a v idle inCap =>
    refine ⟨status, ⟨Memory.wf_write hs.buffers.msgWf a v, fun cell hcell => ?_, hs.buffers.digWf, hs.buffers.digIn,
      hs.buffers.digestThere⟩, fun hq => absurd (hs.status.seq_idle idle) hq⟩
    rcases Memory.mem_write hcell with rfl | hold
    · exact inCap
    · exact hs.buffers.msgIn cell hold
  | started alg g acc idle fits written init =>
    obtain ⟨m, hm⟩ := Memory.firstUnwritten_eq_none_iff.mp written
    have hk : g.kind = s.kind := Engine.init_kind init
    refine ⟨status, ⟨hs.buffers.msgWf, hs.buffers.msgIn, hs.buffers.digWf, fun cell hcell => ?_,
      fun hdone => absurd hdone Bool.false_ne_true⟩, fun _ => ⟨m, 0, _, 0, State.startJob_job acc fits hm init⟩⟩
    exact lt_of_lt_of_eq (hs.buffers.digIn cell hcell) (congrArg digLimit hk).symm
  | wasReset => exact State.resetOf_inv _ _ _ _

/-! ### The core's turns -/

/-- A job that goes on leaves the buffers. -/
theorem State.BuffersOk.goesOn (hs : s.BuffersOk) (frame : s.CoreFrame t) (keeps : s.KeepsJob t) : t.BuffersOk := by
  obtain ⟨hstatus, hdig, -⟩ := keeps
  refine ⟨?_, ?_, ?_, ?_, ?_⟩
  · rw [frame.msg]; exact hs.msgWf
  · rw [frame.msg, frame.msgCap]; exact hs.msgIn
  · rw [hdig]; exact hs.digWf
  · rw [hdig, frame.kind]; exact hs.digIn
  · rw [hstatus, hdig]; exact hs.digestThere

/-- The end of a job leaves a digest of an accepted algorithm. -/
theorem State.BuffersOk.ends (hs : s.BuffersOk) (hok : s.StatusOk) (acc : accepts s.kind s.jalg = true)
    (hend : s.JobEnd m t) : t.BuffersOk := by
  have frame := hend.frame
  refine ⟨?_, ?_, ?_, fun cell hcell => ?_, fun _ j hj => ?_⟩
  · rw [frame.msg]; exact hs.msgWf
  · rw [frame.msg, frame.msgCap]; exact hs.msgIn
  · rw [hend.dig]; exact Memory.wf_writeAll hs.digWf 0 _
  · rw [frame.kind]
    rw [hend.dig] at hcell
    rcases Memory.mem_writeAll hcell with ⟨-, hlt⟩ | hold
    · rw [length_sha, Nat.zero_add] at hlt
      exact lt_of_lt_of_le hlt (digestLen_le_digLimit acc)
    · exact hs.digIn cell hold
  · rw [frame.lalg, ← hok.latched] at hj
    rw [hend.read_digest hj, List.getElem?_eq_getElem (by rwa [length_sha])]
    rfl

theorem State.Inv.ends (hs : s.Inv) (hjob : s.JobAt m i n r) (hok : t.StatusOk) (hend : s.JobEnd m t) : t.Inv :=
  ⟨hok, hs.buffers.ends hs.status hjob.data.accepted hend, fun hq => absurd hend.seq hq⟩

theorem State.Inv.coreRun (hs : s.Inv) (h : s.coreRun = .next t) : t.Inv := by
  by_cases hq : s.seq = .idle
  · rcases State.coreRun_next h with ⟨-, rfl⟩ | ⟨hq', -⟩
    · exact hs
    · exact absurd hq hq'
  · obtain ⟨m, i, n, r, hjob⟩ := hs.job hq
    obtain ⟨t', ht', hend⟩ := hjob.coreRun hq
    obtain rfl : t' = t := by cases ht'.symm.trans h; rfl
    exact hs.ends hjob (hs.status.core (State.coreRun_frame h) (State.coreRun_effect h)) hend

theorem State.Inv.coreMicro (hs : s.Inv) (h : s.coreMicro = .next t) : t.Inv := by
  have frame := State.coreMicro_frame h
  have hok : t.StatusOk := hs.status.core frame (State.coreMicro_effect h)
  rcases State.coreMicro_next h with
    ⟨-, rfl⟩ | ⟨hq, -, hload⟩ | ⟨hq, hl, ⟨r, hr, hlt⟩, hround⟩ | ⟨hq, hl, ⟨r, hr, hge⟩, hchain⟩ | ⟨hq, hlast, hdigest⟩
  · exact hs
  · obtain ⟨m, i, n, r, hjob⟩ := hs.job (by simp [hq])
    refine ⟨hok, hs.buffers.goesOn frame (State.mdLoad_keepsJob hload), fun _ => ⟨m, i, n, 0, ?_⟩⟩
    obtain rfl : s.within m i 0 = t := Option.some.inj (hjob.mdLoad.symm.trans hload)
    exact hjob.within hq (Nat.zero_le _)
  · obtain ⟨m, i, n, r', hjob⟩ := hs.job (by simp [hq])
    obtain rfl : r' = r := Option.some.inj (hjob.roundIdx.symm.trans hr)
    refine ⟨hok, hs.buffers.goesOn frame (State.mdRound_keepsJob hround), fun _ => ⟨m, i, n, r' + 1, ?_⟩⟩
    rw [hjob.eq_within hl, State.within_mdRound] at hround
    obtain rfl : s.within m i (r' + 1) = t := Option.some.inj hround
    exact hjob.within hq hlt
  · obtain ⟨m, i, n, r', hjob⟩ := hs.job (by simp [hq])
    obtain rfl : r' = r := Option.some.inj (hjob.roundIdx.symm.trans hr)
    obtain rfl : r' = s.engine.rounds := Nat.le_antisymm hjob.roundLe hge
    refine ⟨hok, hs.buffers.goesOn frame (State.mdChain_keepsJob hchain), fun _ => ⟨m, i + 1, n, s.engine.rounds, ?_⟩⟩
    obtain ⟨u, hu, hnext, -⟩ := hjob.mdChain hq
    rw [hjob.eq_within hl, hu] at hchain
    exact Option.some.inj hchain ▸ hnext
  · obtain ⟨m, i, n, r, hjob⟩ := hs.job hq
    obtain rfl : i = n := by
      rcases hjob.run_or_at_end hq with ⟨hrun, hlt⟩ | ⟨-, hin, -⟩
      · obtain ⟨i', n', hi', hn', hle⟩ := hlast hrun
        cases hjob.index.symm.trans hi'
        cases hjob.count.symm.trans hn'
        omega
      · exact hin
    obtain ⟨t', ht', hend⟩ := hjob.digest_jobEnd
    obtain rfl : t' = t := Option.some.inj (ht'.symm.trans hdigest)
    exact hs.ends hjob hok hend

/-- Settles O51: the host's effects keep the buffers in form and start a job at its first block; MD_LOAD, a round and
the chaining each lead a described job to a described job, and DIGEST and CoreRun leave the digest. -/
theorem stepKeepsInvariant : Obligations.StepKeepsInvariant := by
  intro s t hs h
  exact step_keeps (P := State.Inv)
    (input := fun s l hs => hs.outside s.fault l s.reads)
    (host := fun _ _ hs h => hs.host h)
    (micro := fun _ _ hs h => hs.coreMicro h)
    (run := fun _ _ hs h => hs.coreRun h) h hs

/-! ### The parameters (R20) -/

/-- Of the host's effects the started job and RESET write the datapath, and both keep its kind. -/
theorem HostEffect.parameters (h : HostEffect s t) : t.kind = s.kind ∧ t.msgCap = s.msgCap := by
  cases h with
  | marked m => exact ⟨rfl, rfl⟩
  | didRead v => exact ⟨rfl, rfl⟩
  | wroteLen v idle => exact ⟨rfl, rfl⟩
  | wroteMsg a v idle inCap => exact ⟨rfl, rfl⟩
  | started alg g acc idle fits written init => exact ⟨Engine.init_kind init, rfl⟩
  | wasReset => exact ⟨State.afterReset_kind s, rfl⟩

/-- Settles O52: the host's effects keep both parameters, and they are in the core's frame. -/
theorem parametersNeverChange : Obligations.ParametersNeverChange := by
  intro s t h
  exact step_keeps (P := fun x => x.kind = s.kind ∧ x.msgCap = s.msgCap)
    (input := fun _ _ hs => hs)
    (host := fun _ _ hs h => ⟨h.parameters.1.trans hs.1, h.parameters.2.trans hs.2⟩)
    (micro := fun _ _ hs h => ⟨(State.coreMicro_frame h).kind.trans hs.1, (State.coreMicro_frame h).msgCap.trans hs.2⟩)
    (run := fun _ _ hs h => ⟨(State.coreRun_frame h).kind.trans hs.1, (State.coreRun_frame h).msgCap.trans hs.2⟩)
    h ⟨rfl, rfl⟩

end Sys2Proof.Machine
end

section
/-! PROOFS. Scope: the micro-steps of the core, one by one (spec/20_memory.md R72, spec/45_chaining_and_digest.md R171
to R174, R177). -/

namespace Sys2Proof.Machine

variable {s : State} {i n r : Nat}

/-! ### Which part of CoreRun a micro-step is -/

/-- While a block is left, `loaded` and the round index choose between MD_LOAD, a round and the chaining. -/
theorem State.coreMicro_of_run (hq : s.seq = .run) (hi : s.blockIdx = some i) (hn : s.blockCount = some n)
    (hr : s.round = some r) (hlt : i < n) :
    s.coreMicro = if s.loaded then
        if r < s.engine.rounds then Result.ofOption s.mdRound else Result.ofOption s.mdChain
      else Result.ofOption s.mdLoad := by
  simp only [State.coreMicro, hq, hi, hn, hr, if_pos hlt]

theorem State.coreMicro_of_out (hq : s.seq = .out) : s.coreMicro = Result.ofOption s.digest := by
  simp only [State.coreMicro, hq]

/-! ### MD_LOAD (R171) -/

theorem Datapath.load_of_hash {w e : Nat} {c : WordConfig w e} {p : List Byte} {d : Datapath w e}
    {H : Vector (BitVec w) 8} (hH : d.hash = some H) :
    d.load c p i = some ⟨some H, some (loadWork H), some (schedule c (parseBlock w p i)), some (parseBlock w p i)⟩ :=
  Datapath.load_eq_some.mpr ⟨H, hH, rfl⟩

/-- Settles O43: on a block that is not loaded the micro-step is MD_LOAD, which writes the four components of the
datapath from `H` and the block. -/
theorem microStepLoadsBlock : Obligations.MicroStepLoadsBlock := by
  intro s m i n t hq hl hm hi hn hlt hr
  have loads (g : Engine) (hg : s.engine.load (padded s.engine.width m) i = some g) :
      s.coreMicro = .next (s.blockLoaded g) := by
    rw [State.coreMicro_of_run hq hi hn hr hlt, if_neg (by simp [hl]),
      State.mdLoad_eq_some.mpr ⟨m, i, g, hm, hi, hg, rfl⟩]
    rfl
  refine ⟨fun d H hd hH => loads _ ?narrow, fun d H hd hH => loads _ ?wide⟩
  case narrow => rw [hd]; exact congrArg (Option.map Engine.w32) (Datapath.load_of_hash hH)
  case wide => rw [hd]; exact congrArg (Option.map Engine.w64) (Datapath.load_of_hash hH)

/-! ### A round (R162, R172) -/

theorem Datapath.round_of_work {w e : Nat} {c : WordConfig w e} {d : Datapath w e} {x : Work w}
    {W : Vector (BitVec w) (16 + e)} (hx : d.work = some x) (hW : d.sched = some W) (hr : r < 16 + e) :
    d.round c r = some { d with work := some (compressionRound c x c.roundK[r] W[r]) } :=
  Datapath.round_eq_some.mpr ⟨x, W, hx, hW, by rw [roundAt, dif_pos hr]⟩

/-- Settles O44: on a loaded block with rounds to go the micro-step is the round that the round index names. -/
theorem microStepRunsRound : Obligations.MicroStepRunsRound := by
  intro s i n t hq hl hi hn hlt hr
  have rounds (g : Engine) (ht : t < s.engine.rounds) (hg : s.engine.round t = some g) :
      s.coreMicro = .next (s.roundDone g (t + 1)) := by
    rw [State.coreMicro_of_run hq hi hn hr hlt, if_pos hl, if_pos ht, State.mdRound_eq_some.mpr ⟨t, g, hr, hg, rfl⟩]
    rfl
  refine ⟨fun d x W ht hd hx hW => rounds _ ?narrowLt ?narrow, fun d x W ht hd hx hW => rounds _ ?wideLt ?wide⟩
  case narrowLt => rw [hd]; exact ht
  case narrow => rw [hd]; exact congrArg (Option.map Engine.w32) (Datapath.round_of_work hx hW ht)
  case wideLt => rw [hd]; exact ht
  case wide => rw [hd]; exact congrArg (Option.map Engine.w64) (Datapath.round_of_work hx hW ht)

/-! ### The chaining (R172) -/

theorem Datapath.chain_of_hash {w e : Nat} {d : Datapath w e} {H : Vector (BitVec w) 8} {x : Work w}
    (hH : d.hash = some H) (hx : d.work = some x) : d.chain = some { d with hash := some (chainWork H x) } :=
  Datapath.chain_eq_some.mpr ⟨H, x, hH, hx, rfl⟩

/-- Settles O45: after the last round the micro-step is the chaining, which ends the block. -/
theorem microStepChains : Obligations.MicroStepChains := by
  intro s i n hq hl hi hn hlt
  have chains (g : Engine) (hr : s.round = some s.engine.rounds) (hg : s.engine.chain = some g) :
      s.coreMicro = .next (s.blockChained g (i + 1) (if i + 1 < n then .run else .out)) := by
    rw [State.coreMicro_of_run hq hi hn hr hlt, if_pos hl, if_neg (Nat.lt_irrefl _),
      State.mdChain_eq_some.mpr ⟨i, n, g, hi, hn, hg, rfl⟩]
    rfl
  refine ⟨fun d H x hd hH hx hr => chains _ ?narrowRound ?narrow, fun d H x hd hH hx hr => chains _ ?wideRound ?wide⟩
  case narrowRound => rw [hd]; exact hr
  case narrow => rw [hd]; exact congrArg (Option.map Engine.w32) (Datapath.chain_of_hash hH hx)
  case wideRound => rw [hd]; exact hr
  case wide => rw [hd]; exact congrArg (Option.map Engine.w64) (Datapath.chain_of_hash hH hx)

/-! ### DIGEST (R174) -/

/-- The leading bytes of a serialised hash in DIG: byte `r` of word `k`, and the cells beyond. -/
theorem Memory.read_writeAll_serialize {w : Nat} (mem : Memory) (H : Vector (BitVec w) 8) {dl : Nat}
    (hdl : dl ≤ 8 * wordBytes w) :
    (∀ k r, ∀ hk : k < 8, r < wordBytes w → wordBytes w * k + r < dl →
      (mem.writeAll 0 ((serialize H).take dl)).read (wordBytes w * k + r) =
        some (beByte (wordBytes w) H[k].toNat r)) ∧
    ∀ j, dl ≤ j → (mem.writeAll 0 ((serialize H).take dl)).read j = mem.read j := by
  have hlen : ((serialize H).take dl).length = dl := List.length_take_of_le (by rwa [serialize_length])
  refine ⟨fun k r hk hr hlt => ?_, fun j hj => Memory.read_writeAll_zero_of_le mem (by rwa [hlen])⟩
  rw [Memory.read_writeAll_zero_of_lt mem (by rwa [hlen]), List.getElem?_take_of_lt hlt, serialize_getElem? H k r hk hr]

/-- Settles O46: at phase OUT the micro-step is DIGEST, and the bytes it writes are those of the big-endian words in
order. -/
theorem digestSerialisesHash : Obligations.DigestSerialisesHash := by
  intro s hq
  have digests (bytes : List Byte) (hb : s.engine.serialize = some bytes) :
      s.coreMicro = .next (s.jobDone (s.dig.writeAll 0 (bytes.take (digestLen s.jalg)))) := by
    rw [State.coreMicro_of_out hq, State.digest_eq_some.mpr ⟨bytes, hb, rfl⟩]
    rfl
  have wideFits (alg : Alg) : digestLen alg ≤ 8 * wordBytes 64 := by
    cases alg with
    | sha256 => decide
    | sha384 => decide
    | sha512 => decide
  refine ⟨digestLen s.jalg, rfl, fun d H hd hH halg => ?narrow, fun d H hd hH => ?wide⟩
  case narrow =>
    have hb : s.engine.serialize = some (serialize H) := by rw [hd, Engine.serialize, hH]; rfl
    exact ⟨_, digests _ hb, Memory.read_writeAll_serialize s.dig H (by rw [halg]; decide)⟩
  case wide =>
    have hb : s.engine.serialize = some (serialize H) := by rw [hd, Engine.serialize, hH]; rfl
    exact ⟨_, digests _ hb, Memory.read_writeAll_serialize s.dig H (wideFits s.jalg)⟩

/-! ### What no turn of the core writes (R72 (d)) -/

/-- Settles O48: both kinds of turn have the core's frame. -/
theorem coreNeverWritesInputs : Obligations.CoreNeverWritesInputs := by
  intro s t h
  obtain ⟨hcap, hkind, hlen, hmsg, hjalg, hlalg, hcount, hfault, -, hreads⟩ : s.CoreFrame t :=
    h.elim State.coreMicro_frame State.coreRun_frame
  exact ⟨hmsg, hlen, hjalg, hlalg, hkind, hcap, hfault, hreads, hcount⟩

end Sys2Proof.Machine
end

section
/-! PROOFS. Scope: how many micro-steps a job takes, and that they come to what CoreRun answers
(spec/45_chaining_and_digest.md R177, R178). -/

namespace Sys2Proof.Machine

variable {s t u : State} {m : List Byte} {i n r : Nat}

/-! ### Micro-steps in a row -/

/-- `k` micro-steps lead from `s` to `t`, and before each of them BUSY is 1. -/
def State.BusyPath (k : Nat) (s t : State) : Prop :=
  s.coreMicros k = .next t ∧ ∀ j, j < k → ∃ u, s.coreMicros j = .next u ∧ u.status.busy = true

theorem State.BusyPath.zero (s : State) : State.BusyPath 0 s s :=
  ⟨rfl, fun _ hj => absurd hj (Nat.not_lt_zero _)⟩

theorem State.BusyPath.trans {j k : Nat} (a : State.BusyPath j s t) (b : State.BusyPath k t u) :
    State.BusyPath (j + k) s u := by
  refine ⟨(State.coreMicros_add a.1 k).trans b.1, fun l hl => ?_⟩
  by_cases hlt : l < j
  · exact a.2 l hlt
  · obtain ⟨l', rfl⟩ := Nat.exists_eq_add_of_le (Nat.not_lt.mp hlt)
    rw [State.coreMicros_add a.1 l']
    exact b.2 l' (by omega)

theorem State.BusyPath.one (busy : s.status.busy = true) (h : s.coreMicro = .next t) : State.BusyPath 1 s t := by
  refine ⟨by simp only [State.coreMicros, h], fun j hj => ?_⟩
  obtain rfl : j = 0 := by omega
  exact ⟨s, rfl, busy⟩

/-- The rounds of a loaded block from the round index on. -/
theorem State.JobAt.busyPath_rounds {r₀ k : Nat} (h : s.JobAt m i n r₀) (hq : s.seq = .run)
    (busy : s.status.busy = true) (hk : r + k ≤ s.engine.rounds) :
    State.BusyPath k (s.within m i r) (s.within m i (r + k)) := by
  induction k with
  | zero => exact .zero _
  | succ k ih => exact (ih (by omega)).trans (.one busy (h.micro_round hq (by omega)))

/-- CoreRun from within a block begins the block again, and so it ends as CoreRun from the next block. -/
theorem State.JobAt.coreRun_block {r' : Nat} (h : s.JobAt m i n r) (hq : s.seq = .run) (hu : u.JobAt m (i + 1) n r')
    (huq : u.seq ≠ .idle) (hblock : ∀ k, State.mdBlocks (k + 1) s = State.mdBlocks k u) : s.coreRun = u.coreRun := by
  have hlt := h.running hq
  rw [h.coreRun_eq (by simp [hq]), hu.coreRun_eq huq, ← hblock, show n - (i + 1) + 1 = n - i by omega]

/-- The chaining is the micro-step after the last round. -/
theorem State.JobAt.micro_chain (h : s.JobAt m i n r) (hq : s.seq = .run)
    (hu : (s.within m i s.engine.rounds).mdChain = some u) : (s.within m i s.engine.rounds).coreMicro = .next u := by
  have job := h.within hq (Nat.le_refl _)
  have hl : (s.within m i s.engine.rounds).loaded = true := rfl
  have hr : (s.within m i s.engine.rounds).engine.rounds = s.engine.rounds := Engine.within_rounds
  rw [State.coreMicro_of_run (s := s.within m i s.engine.rounds) hq job.index job.count job.roundIdx (h.running hq),
    if_pos hl, if_neg (by rw [hr]; omega), hu]
  rfl

/-- From every round of a block the rounds that are left and the chaining lead to the next block, and CoreRun ends alike
from both. -/
theorem State.JobAt.next_block (h : s.JobAt m i n r) (hq : s.seq = .run) (busy : s.status.busy = true) :
    ∃ u, u.JobAt m (i + 1) n s.engine.rounds ∧ u.loaded = false ∧ u.seq ≠ .idle ∧ u.status.busy = true ∧
      u.engine.rounds = s.engine.rounds ∧ s.coreRun = u.coreRun ∧
      ∀ r', r' ≤ s.engine.rounds → State.BusyPath (s.engine.rounds - r' + 1) (s.within m i r') u := by
  obtain ⟨u, hblock, hchain, hjob, hl, -, hrounds⟩ := h.block hq
  obtain ⟨hstatus, -, underWay⟩ := State.mdChain_keepsJob hchain
  have huq : u.seq ≠ .idle := underWay (fun hidle => Seq.noConfusion (hq.symm.trans hidle))
  refine ⟨u, hjob, hl, huq, (congrArg Status.busy hstatus).trans busy, hrounds, h.coreRun_block hq hjob huq hblock,
    fun r' hr' => ?_⟩
  have rounds := h.busyPath_rounds hq busy (Nat.add_sub_cancel' hr').le
  rw [Nat.add_sub_cancel' hr'] at rounds
  exact rounds.trans (.one busy (h.micro_chain hq hchain))

/-- From a block that is not loaded yet the rest of the job takes `R + 2` micro-steps for each block that is left, and
one for DIGEST. -/
theorem State.JobAt.busyPath (h : s.JobAt m i n r) (hq : s.seq ≠ .idle) (busy : s.status.busy = true)
    (hl : s.loaded = false) :
    ∃ t, s.coreRun = .next t ∧ State.BusyPath ((n - i) * (s.engine.rounds + 2) + 1) s t := by
  generalize hk : n - i = k
  induction k generalizing s i r with
  | zero =>
    rcases h.run_or_at_end hq with ⟨-, hlt⟩ | ⟨hout, rfl, -⟩
    · omega
    · obtain ⟨t, ht, -⟩ := h.digest_jobEnd
      have last : s.coreMicro = .next t := by rw [State.coreMicro_of_out hout, ht]; rfl
      refine ⟨t, by rw [h.coreRun_eq hq, hk, State.mdBlocks, Option.bind_some, ht]; rfl, ?_⟩
      rw [Nat.zero_mul]
      exact .one busy last
  | succ k ih =>
    rcases h.run_or_at_end hq with ⟨hrun, hlt⟩ | ⟨-, rfl, -⟩
    · obtain ⟨u, hjob, hul, huq, hub, hrounds, hsame, block⟩ := h.next_block hrun busy
      obtain ⟨t, ht, path⟩ := ih hjob huq hub hul (by omega)
      have load : State.BusyPath 1 s (s.within m i 0) := .one busy (h.micro_load hrun hl)
      have steps : (k + 1) * (s.engine.rounds + 2) + 1 =
          1 + ((s.engine.rounds - 0 + 1) + (k * (u.engine.rounds + 2) + 1)) := by
        rw [hrounds, Nat.sub_zero]
        ring
      rw [steps]
      exact ⟨t, hsame.trans ht, load.trans ((block 0 (Nat.zero_le _)).trans path)⟩
    · omega

/-! ### The statements -/

/-- Settles O54: within a block the rounds that are left and the chaining come first; from the next block on, or where
no block is loaded, the micro-steps are counted above. -/
theorem microStepsReachCoreRun : Obligations.MicroStepsReachCoreRun := by
  intro s hinv hq
  obtain ⟨m, i, n, r, h⟩ := hinv.job hq
  have busy : s.status.busy = true := hinv.status.busyIff.mpr hq
  suffices ∃ k t, 0 < k ∧ s.coreRun = .next t ∧ State.BusyPath k s t by
    obtain ⟨k, t, hk, ht, hmicros, hbusy⟩ := this
    exact ⟨k, hk, hmicros.trans ht.symm, hbusy⟩
  cases hl : s.loaded with
  | false =>
    obtain ⟨t, ht, path⟩ := h.busyPath hq busy hl
    exact ⟨_, t, Nat.succ_pos _, ht, path⟩
  | true =>
    rcases h.run_or_at_end hq with ⟨hrun, -⟩ | ⟨-, -, hl'⟩
    · obtain ⟨u, hjob, hul, huq, hub, -, hsame, block⟩ := h.next_block hrun busy
      obtain ⟨t, ht, path⟩ := hjob.busyPath huq hub hul
      have toNext := block r h.roundLe
      rw [← h.eq_within hl] at toNext
      exact ⟨_, t, Nat.succ_pos _, hsame.trans ht, toNext.trans path⟩
    · simp [hl] at hl'

/-- Settles O55: right after acceptance all `n` blocks are left, and the width of the core gives `R`. -/
theorem jobTakesExactlyItsRounds : Obligations.JobTakesExactlyItsRounds := by
  intro s n R hinv hrun hi hl hn hR
  have hq : s.seq ≠ .idle := by simp [hrun]
  obtain ⟨m, i', n', r, h⟩ := hinv.job hq
  obtain rfl : i' = 0 := Option.some.inj (h.index.symm.trans hi)
  obtain rfl : n' = n := Option.some.inj (h.count.symm.trans hn)
  obtain rfl : s.engine.rounds = R := by
    rw [Engine.rounds_eq, ← State.kind_eq]
    rcases hR with ⟨hk, rfl⟩ | ⟨hk, rfl⟩
    · rw [hk]
    · rw [hk]
  obtain ⟨t, ht, path⟩ := h.busyPath hq (hinv.status.busyIff.mpr hq) hl
  rw [Nat.sub_zero] at path
  exact ⟨path.1.trans ht.symm, fun j hj => path.2 j (Nat.lt_succ_of_le hj)⟩

end Sys2Proof.Machine
end

section
/-! PROOFS. Scope: the faults of selectors and of unwritten bytes, and the codes that each operation raises
(spec/48_host_operations.md R200, R204, spec/60_exceptions.md R301, R302, R307, R313). -/

namespace Sys2Proof.Machine

variable {s t : State} {alg : Alg} {data : HWord} {idx : Index} {m : FaultMark}

/-! ### HASH commands (R89, R200) -/

/-- Settles O6: the decode of each of the three words (R85) goes to acceptance with the command's selector. -/
theorem hashCommandsAreCmdWrites : Obligations.HashCommandsAreCmdWrites :=
  fun _ => ⟨rfl, rfl, rfl⟩

theorem State.acceptHash_of_not_accepted (data : HWord) (hacc : accepts s.kind alg = false) :
    s.acceptHash data alg = s.raiseFault (.unsupportedAlg data s.kind) := by
  rw [State.acceptHash, (Engine.init_eq_none_iff s.engine alg).mpr hacc]

theorem State.acceptHash_of_unwritten {j : Nat} (data : HWord) (acc : accepts s.kind alg = true)
    (idle : s.status.busy = false) (fits : s.len.toNat ≤ s.msgCap.val)
    (hj : s.msg.firstUnwritten 0 s.len.toNat = some j) :
    s.acceptHash data alg = s.raiseFault (.unwrittenMessageByte .wrCmd j) := by
  rcases s.acceptHash_cases data alg with
    ⟨hacc, -⟩ | ⟨-, busy, -⟩ | ⟨-, -, big, -⟩ | ⟨-, -, -, j', hj', hfault⟩ | ⟨-, -, -, hnone, -⟩
  · simp [acc] at hacc
  · simp [idle] at busy
  · omega
  · obtain rfl : j' = j := Option.some.inj (hj'.symm.trans hj)
    exact hfault
  · simp [hj] at hnone

/-- Settles O21: the selector 3 is none of R23's, and acceptance checks the kind of the core before all else. -/
theorem unacceptedSelectorsFault : Obligations.UnacceptedSelectorsFault := by
  intro s hf
  have command (kind : CoreKind) (data : HWord) (alg : Alg) (hk : s.kind = kind) (hacc : accepts kind alg = false) :
      s.ifEnabled (s.acceptHash data alg) = .next { s with fault := some (.unsupportedAlg data kind) } := by
    subst hk
    exact (State.ifEnabled_of_none hf _).trans (State.acceptHash_of_not_accepted data hacc)
  refine ⟨State.ifEnabled_of_none hf _, fun hk => ?sha256, fun hk => ?sha384, fun hk => ?sha512⟩
  case sha256 =>
    have faults := command .sha512Core cmdSha256 .sha256 hk rfl
    exact List.forall_mem_cons.mpr ⟨faults, List.forall_mem_singleton.mpr faults⟩
  case sha384 =>
    have faults := command .sha256Core cmdSha384 .sha384 hk rfl
    exact List.forall_mem_cons.mpr ⟨faults, List.forall_mem_singleton.mpr faults⟩
  case sha512 =>
    have faults := command .sha256Core cmdSha512 .sha512 hk rfl
    exact List.forall_mem_cons.mpr ⟨faults, List.forall_mem_singleton.mpr faults⟩

/-- Settles O24: the walk of acceptance stops at the lowest unwritten byte, and RD_MSG meets the one it names. -/
theorem unwrittenMessageBytesFault : Obligations.UnwrittenMessageBytesFault := by
  refine ⟨fun s i alg j hi hf acc idle fits hj hr hlow => ?command,
    fun s idx hf hidx hr => exec_rdMsg_of_unwritten hf hidx hr⟩
  obtain ⟨data, hexec⟩ := exec_of_mem_hashEncodings hi s
  have hwalk : s.msg.firstUnwritten 0 s.len.toNat = some j :=
    Memory.firstUnwritten_eq_some_iff.mpr ⟨Nat.zero_le j, by omega, hr, fun k _ hk => hlow k hk⟩
  rw [hexec, State.ifEnabled_of_none hf]
  exact State.acceptHash_of_unwritten data acc idle fits hwalk

/-! ### The codes that each operation raises (R301, R313) -/

/-- An answer of one fault has that fault's mark. -/
theorem State.raiseFault_mark {m' : FaultMark} (h : s.raiseFault m' = .next t) (hm : t.fault = some m) : m' = m := by
  rw [State.raiseFault_next h] at hm
  exact Option.some.inj hm

/-- A fault that a command word can raise. -/
def FaultMark.OfCommand (m : FaultMark) : Prop := m.code ∈ [1, 2, 3, 4, 6, 7] ∧ m.op = .wrCmd

theorem State.acceptHash_mark (hf : s.fault = none) (h : s.acceptHash data alg = .next t) (hm : t.fault = some m) :
    m.OfCommand := by
  rcases s.acceptHash_cases data alg with
    ⟨-, e⟩ | ⟨-, -, e⟩ | ⟨-, -, -, e⟩ | ⟨-, -, -, j, -, e⟩ | ⟨-, -, -, -, g, -, e⟩
  · obtain rfl := State.raiseFault_mark (e ▸ h) hm
    exact ⟨by simp [FaultMark.code], rfl⟩
  · obtain rfl := State.raiseFault_mark (e ▸ h) hm
    exact ⟨by simp [FaultMark.code], rfl⟩
  · obtain rfl := State.raiseFault_mark (e ▸ h) hm
    exact ⟨by simp [FaultMark.code], rfl⟩
  · obtain rfl := State.raiseFault_mark (e ▸ h) hm
    exact ⟨by simp [FaultMark.code], rfl⟩
  · cases e.symm.trans h
    simp [hf] at hm

theorem State.writeCommand_mark (hf : s.fault = none) (h : s.writeCommand data = .next t) (hm : t.fault = some m) :
    m.OfCommand := by
  rcases s.writeCommand_cases data with ⟨-, e⟩ | ⟨-, -, ⟨-, e⟩ | ⟨alg, -, e⟩⟩
  · obtain rfl := State.raiseFault_mark (e ▸ h) hm
    exact ⟨by simp [FaultMark.code], rfl⟩
  · obtain rfl := State.raiseFault_mark (e ▸ h) hm
    exact ⟨by simp [FaultMark.code], rfl⟩
  · exact State.acceptHash_mark hf (e ▸ h) hm

theorem exec_wrLen_mark (hf : s.fault = none) (h : exec (.wrLen data) s = .next t) (hm : t.fault = some m) :
    m = .inputWriteWhileBusy reqWrLen data := by
  cases hb : s.status.busy with
  | true => exact (State.raiseFault_mark ((exec_wrLen_of_busy hf hb).symm.trans h) hm).symm
  | false =>
    cases (exec_wrLen_of_idle hf hb).symm.trans h
    simp [hf] at hm

theorem exec_wrMsg_mark (hf : s.fault = none) (hidx : idx.toNat < s.msgCap.val)
    (h : exec (.wrMsg idx data) s = .next t) (hm : t.fault = some m) :
    m = .dataOutOfRange (reqWrMsg idx) data ∨ m = .inputWriteWhileBusy (reqWrMsg idx) data := by
  by_cases hd : data.toNat < 256
  · cases hb : s.status.busy with
    | true => exact .inr (State.raiseFault_mark ((exec_wrMsg_of_busy hf hidx hd hb).symm.trans h) hm).symm
    | false =>
      cases (exec_wrMsg_of_idle hf hidx hd hb).symm.trans h
      simp [hf] at hm
  · exact .inl (State.raiseFault_mark ((exec_wrMsg_of_data_ge hf hidx (Nat.not_lt.mp hd)).symm.trans h) hm).symm

theorem exec_rdMsg_mark (hf : s.fault = none) (hidx : idx.toNat < s.msgCap.val) (h : exec (.rdMsg idx) s = .next t)
    (hm : t.fault = some m) : m = .unwrittenMessageByte .rdMsg idx.toNat := by
  cases hr : s.msg.read idx.toNat with
  | none => exact (State.raiseFault_mark ((exec_rdMsg_of_unwritten hf hidx hr).symm.trans h) hm).symm
  | some b =>
    cases (exec_rdMsg_of_written hf hidx hr).symm.trans h
    simp [hf] at hm

theorem exec_rdDig_of_noValue (hf : s.fault = none) (hidx : idx.toNat < digCells) (hd : s.status.done = true)
    (hl : idx.toNat < digestLen s.status.lalg) (hr : s.dig.read idx.toNat = none) :
    exec (.rdDig idx) s = .fault .noValue :=
  (State.ifEnabled_of_none hf _).trans
    (by rw [if_neg (Nat.not_le.mpr hidx), if_neg (by simp [hd]), if_neg (Nat.not_le.mpr hl), hr])

theorem exec_rdDig_mark (hf : s.fault = none) (hidx : idx.toNat < digCells) (h : exec (.rdDig idx) s = .next t)
    (hm : t.fault = some m) : m = .digestNotReady (reqRdDig idx) ∨ m = .digestIndexOutOfRange (reqRdDig idx) := by
  cases hd : s.status.done with
  | false => exact .inl (State.raiseFault_mark ((exec_rdDig_of_not_done hf hidx hd).symm.trans h) hm).symm
  | true =>
    by_cases hl : idx.toNat < digestLen s.status.lalg
    · cases hr : s.dig.read idx.toNat with
      | none => cases (exec_rdDig_of_noValue hf hidx hd hl hr).symm.trans h
      | some b =>
        cases (exec_rdDig_of_written hf hidx hd hl hr).symm.trans h
        simp [hf] at hm
    · have faults := exec_rdDig_of_digestLen_le hf hidx hd (Nat.not_lt.mp hl)
      exact .inr (State.raiseFault_mark (faults.symm.trans h) hm).symm

/-- Settles O11: the marks of each operation as above; a read of STATUS or LEN and RESET set none. -/
theorem raisedCodesFollowTable : Obligations.RaisedCodesFollowTable := by
  refine ⟨fun i s t m hf wf h hm => ?raised,
    fun _ _ _ _ _ => ⟨rfl, rfl, rfl, rfl, rfl, rfl, rfl, rfl, rfl, rfl, rfl, rfl⟩⟩
  cases i with
  | wrCmd data =>
    obtain ⟨hcode, hop⟩ := State.writeCommand_mark hf (State.ifEnabled_next h).2 hm
    exact .inl ⟨hcode, hop, .inr (.inr (.inr ⟨data, rfl⟩))⟩
  | hashSha256 =>
    obtain ⟨hcode, hop⟩ := State.acceptHash_mark hf (State.ifEnabled_next h).2 hm
    exact .inl ⟨hcode, hop, .inl rfl⟩
  | hashSha384 =>
    obtain ⟨hcode, hop⟩ := State.acceptHash_mark hf (State.ifEnabled_next h).2 hm
    exact .inl ⟨hcode, hop, .inr (.inl rfl)⟩
  | hashSha512 =>
    obtain ⟨hcode, hop⟩ := State.acceptHash_mark hf (State.ifEnabled_next h).2 hm
    exact .inl ⟨hcode, hop, .inr (.inr (.inl rfl))⟩
  | rdStatus => cases (exec_rdStatus_of_none hf).symm.trans h; simp [hf] at hm
  | rdLen => cases (exec_rdLen_of_none hf).symm.trans h; simp [hf] at hm
  | reset => cases (exec_reset_of_none hf).symm.trans h; simp at hm
  | wrLen data =>
    obtain rfl := exec_wrLen_mark hf h hm
    exact .inr (.inl ⟨rfl, rfl, data, rfl⟩)
  | wrMsg idx data =>
    rcases exec_wrMsg_mark hf (of_decide_eq_true wf) h hm with rfl | rfl
    · exact .inr (.inr (.inl ⟨by simp [FaultMark.code], rfl, idx, data, rfl⟩))
    · exact .inr (.inr (.inl ⟨by simp [FaultMark.code], FaultMark.op_inputWrite_wrMsg idx data, idx, data, rfl⟩))
  | rdMsg idx =>
    obtain rfl := exec_rdMsg_mark hf (of_decide_eq_true wf) h hm
    exact .inr (.inr (.inr (.inl ⟨rfl, rfl, idx, rfl⟩)))
  | rdDig idx =>
    rcases exec_rdDig_mark hf (of_decide_eq_true wf) h hm with rfl | rfl
    · exact .inr (.inr (.inr (.inr ⟨by simp [FaultMark.code], rfl, idx, rfl⟩)))
    · exact .inr (.inr (.inr (.inr ⟨by simp [FaultMark.code], rfl, idx, rfl⟩)))

end Sys2Proof.Machine
end

section
/-! PROOFS. Scope: what a read returns after a write or a job, and what reads and writes of LEN and MSG leave
(spec/20_memory.md R72, spec/48_host_operations.md R201 to R205, R207). -/

namespace Sys2Proof.Machine

variable {s t : State} {data : HWord}

/-! ### Reads after writes (R72) -/

theorem digestLen_le_digCells (alg : Alg) : digestLen alg ≤ digCells := by
  cases alg with
  | sha256 => decide
  | sha384 => decide
  | sha512 => decide

theorem setWidth_byteValue (b : Byte) : (byteValue b).setWidth 8 = b := by
  apply BitVec.eq_of_toNat_eq
  simp [byteValue]

/-- Settles O16: while DONE is 1 the invariant has a byte in every cell below `DL`. -/
theorem doneDigestIsReadable : Obligations.DoneDigestIsReadable := by
  intro s idx hinv hf hd hl
  obtain ⟨b, hb⟩ := Option.isSome_iff_exists.mp (hinv.buffers.digestThere hd idx.toNat hl)
  have hidx : idx.toNat < digCells := Nat.lt_of_lt_of_le hl (digestLen_le_digCells _)
  exact ⟨byteValue b, exec_rdDig_of_written hf hidx hd hl hb, by rw [hb, setWidth_byteValue]⟩

theorem byteValue_dataByte (hd : data.toNat < 256) : byteValue (dataByte data) = data := by
  apply BitVec.eq_of_toNat_eq
  rw [toNat_byteValue, dataByte_eq_ofNat, BitVec.toNat_ofNat, Nat.mod_eq_of_lt hd]

/-- Settles O19: the cell written is the one read, and a DATA below 256 is its own byte. -/
theorem writtenMsgByteReadsBack : Obligations.WrittenMsgByteReadsBack := by
  intro s idx data hf hidx hd hb
  refine ⟨_, _, exec_wrMsg_of_idle hf hidx hd hb,
    exec_rdMsg_of_written (s := s.withMsgByte idx.toNat (dataByte data)) hf hidx (Memory.read_write_same ..), ?_, hf⟩
  rw [State.withRead_reads, byteValue_dataByte hd, State.withMsgByte_reads]

/-! ### What reads and writes of LEN and MSG leave -/

theorem exec_read_next {i : Instr} (hi : i = .rdStatus ∨ i = .rdLen ∨ (∃ idx, i = .rdMsg idx) ∨ ∃ idx, i = .rdDig idx)
    (h : exec i s = .next t) : (∃ m, t = s.withFault m) ∨ ∃ v, t = s.withRead v := by
  rcases hi with rfl | rfl | ⟨idx, rfl⟩ | ⟨idx, rfl⟩
  · cases (State.ifEnabled_next h).2; exact .inr ⟨_, rfl⟩
  · cases (State.ifEnabled_next h).2; exact .inr ⟨_, rfl⟩
  · exact exec_rdMsg_next h
  · exact exec_rdDig_next h

/-- Settles O28: the six operations raise a fault, are a read, or write LEN or one byte of MSG, and a read is one of the
first two. -/
theorem onlyCommandsAndResetTouchTheJob : Obligations.OnlyCommandsAndResetTouchTheJob := by
  intro s t i hi h
  have notCommand : i ∉ [.hashSha256, .hashSha384, .hashSha512, .reset] ∧ ∀ word, i ≠ .wrCmd word := by
    rcases hi with ⟨data, rfl⟩ | ⟨idx, data, rfl⟩ | rfl | rfl | ⟨idx, rfl⟩ | ⟨idx, rfl⟩ <;> simp
  have inputs (hread : i = .rdStatus ∨ i = .rdLen ∨ (∃ idx, i = .rdMsg idx) ∨ ∃ idx, i = .rdDig idx) :
      t.len = s.len ∧ t.msg = s.msg := by
    rcases exec_read_next hread h with ⟨m, rfl⟩ | ⟨v, rfl⟩
    · exact ⟨rfl, rfl⟩
    · exact ⟨rfl, rfl⟩
  rcases exec_next_of_not_command notCommand.1 notCommand.2 h with ⟨m, rfl⟩ | ⟨v, rfl⟩ | ⟨v, rfl⟩ | ⟨a, v, rfl⟩
  · exact ⟨rfl, rfl, rfl, rfl, rfl, rfl, rfl, rfl, rfl, inputs⟩
  · exact ⟨rfl, rfl, rfl, rfl, rfl, rfl, rfl, rfl, rfl, inputs⟩
  · exact ⟨rfl, rfl, rfl, rfl, rfl, rfl, rfl, rfl, rfl, inputs⟩
  · exact ⟨rfl, rfl, rfl, rfl, rfl, rfl, rfl, rfl, rfl, inputs⟩

end Sys2Proof.Machine
end

section
/-! PROOFS. Scope: the host cannot observe the datapath (spec/60_exceptions.md R320). -/

namespace Sys2Proof.Machine

variable {s s' : State}

/-! ### What the operations write -/

theorem State.SameToHost.withFault (h : s.SameToHost s') (m : FaultMark) :
    (s.withFault m).SameToHost (s'.withFault m) :=
  ⟨h.kind, h.msgCap, h.status, h.len, h.msg, h.dig, rfl, h.reads⟩

theorem State.SameToHost.withRead (h : s.SameToHost s') (v : HWord) : (s.withRead v).SameToHost (s'.withRead v) :=
  ⟨h.kind, h.msgCap, h.status, h.len, h.msg, h.dig, h.fault, congrArg (v :: ·) h.reads⟩

theorem State.SameToHost.withLen (h : s.SameToHost s') (v : HWord) : (s.withLen v).SameToHost (s'.withLen v) :=
  ⟨h.kind, h.msgCap, h.status, rfl, h.msg, h.dig, h.fault, h.reads⟩

theorem State.SameToHost.withMsgByte (h : s.SameToHost s') (a : Nat) (v : Byte) :
    (s.withMsgByte a v).SameToHost (s'.withMsgByte a v) :=
  ⟨h.kind, h.msgCap, h.status, h.len, congrArg (·.write a v) h.msg, h.dig, h.fault, h.reads⟩

theorem State.SameToHost.afterReset (h : s.SameToHost s') : s.afterReset.SameToHost s'.afterReset :=
  ⟨(State.afterReset_kind s).trans (h.kind.trans (State.afterReset_kind s').symm), h.msgCap, rfl, rfl, rfl, rfl, rfl,
    h.reads⟩

/-! ### What the operations look at -/

/-- The guard of an operation is seen alike. -/
theorem State.SameToHost.ifEnabled {r r' : Result} (h : s.SameToHost s') (hr : SameResultToHost r r') :
    SameResultToHost (s.ifEnabled r) (s'.ifEnabled r') := by
  cases hf : s.fault with
  | none => rwa [State.ifEnabled_of_none hf, State.ifEnabled_of_none (h.fault ▸ hf)]
  | some m =>
    rw [State.ifEnabled_of_some hf, State.ifEnabled_of_some (h.fault ▸ hf)]
    rfl

theorem Memory.written_of_firstUnwritten_eq_none {mem : Memory} {n : Nat} (h : mem.firstUnwritten 0 n = none) :
    ∀ j, j < n → mem.read j ≠ none := by
  intro j hj hr
  obtain ⟨vs, hvs⟩ := Memory.firstUnwritten_eq_none_iff.mp h
  have hget : vs[j]? = none := (Memory.readAll_getElem? hvs j hj).trans (by rw [Nat.zero_add, hr])
  rw [List.getElem?_eq_none_iff, Memory.readAll_length hvs] at hget
  omega

/-- Acceptance looks at the kind of the core only, not at its datapath. -/
theorem State.SameToHost.acceptHash (h : s.SameToHost s') (data : HWord) (alg : Alg) :
    SameResultToHost (s.acceptHash data alg) (s'.acceptHash data alg) := by
  have faults (m : FaultMark) : SameResultToHost (s.raiseFault m) (s'.raiseFault m) := h.withFault m
  rcases s.acceptHash_cases data alg with
    ⟨hacc, e⟩ | ⟨acc, busy, e⟩ | ⟨acc, idle, big, e⟩ | ⟨acc, idle, fits, j, hj, e⟩ |
      ⟨acc, idle, fits, written, g, hg, e⟩
  all_goals rw [e]
  · rw [State.acceptHash_of_not_accepted data (h.kind ▸ hacc), ← h.kind]
    exact faults _
  · rw [State.acceptHash_of_busy data (h.kind ▸ acc) (h.status ▸ busy)]
    exact faults _
  · rw [State.acceptHash_of_msgCap_lt_len data (h.kind ▸ acc) (h.status ▸ idle) (h.msgCap ▸ h.len ▸ big), ← h.len]
    exact faults _
  · rw [State.acceptHash_of_unwritten data (h.kind ▸ acc) (h.status ▸ idle) (h.msgCap ▸ h.len ▸ fits)
      (h.msg ▸ h.len ▸ hj)]
    exact faults _
  · have hwalk : s'.msg.firstUnwritten 0 s'.len.toNat = none := h.msg ▸ h.len ▸ written
    obtain ⟨g', hg', e'⟩ := State.acceptHash_starts (s := s') data (h.kind ▸ acc) (h.status ▸ idle)
      (h.msgCap ▸ h.len ▸ fits) (Memory.written_of_firstUnwritten_eq_none hwalk)
    rw [e']
    exact ⟨(Engine.init_kind hg).trans (h.kind.trans (Engine.init_kind hg').symm), h.msgCap, rfl, h.len, h.msg, h.dig,
      h.fault, h.reads⟩

theorem State.SameToHost.writeCommand (h : s.SameToHost s') (data : HWord) :
    SameResultToHost (s.writeCommand data) (s'.writeCommand data) := by
  unfold State.writeCommand
  split
  · exact h.withFault _
  · split
    · exact h.withFault _
    · exact h.acceptHash data _

theorem SameResultToHost.ite {c : Prop} [Decidable c] {r₁ r₁' r₂ r₂' : Result} (h₁ : SameResultToHost r₁ r₁')
    (h₂ : SameResultToHost r₂ r₂') : SameResultToHost (if c then r₁ else r₂) (if c then r₁' else r₂') := by
  split
  · exact h₁
  · exact h₂

/-- Settles O56: every guard and every value of an operation is taken from the components that are alike, and what it
writes is alike again. -/
theorem hostCannotObserveDatapath : Obligations.HostCannotObserveDatapath := by
  intro i s s' h
  cases i with
  | wrCmd data => exact h.ifEnabled (h.writeCommand data)
  | hashSha256 => exact h.ifEnabled (h.acceptHash _ _)
  | hashSha384 => exact h.ifEnabled (h.acceptHash _ _)
  | hashSha512 => exact h.ifEnabled (h.acceptHash _ _)
  | rdStatus =>
    refine h.ifEnabled ?_
    rw [← h.status]
    exact h.withRead _
  | rdLen =>
    refine h.ifEnabled ?_
    rw [← h.len]
    exact h.withRead _
  | wrLen data =>
    refine h.ifEnabled ?_
    rw [← h.status]
    exact .ite (h.withFault _) (h.withLen data)
  | wrMsg idx data =>
    refine h.ifEnabled ?_
    rw [← h.status, ← h.msgCap]
    exact .ite (h.withFault _) (.ite (h.withFault _) (.ite (h.withFault _) (h.withMsgByte _ _)))
  | rdMsg idx =>
    refine h.ifEnabled ?_
    rw [← h.msgCap, ← h.msg]
    refine .ite (h.withFault _) ?_
    cases s.msg.read idx.toNat with
    | none => exact h.withFault _
    | some b => exact h.withRead _
  | rdDig idx =>
    refine h.ifEnabled ?_
    rw [← h.status, ← h.dig]
    refine .ite (h.withFault _) (.ite (h.withFault _) (.ite (h.withFault _) ?_))
    cases s.dig.read idx.toNat with
    | none => rfl
    | some b => exact h.withRead _
  | reset => exact h.ifEnabled h.afterReset

end Sys2Proof.Machine
end

section
/-! PROOFS. Scope: rotation, shift and the four mixing functions (spec/40_word_ops.md R100, R101, R106 to R109). -/

namespace Sys2Proof.Machine

/-! ### Rotation and shift -/

theorem rotr_toNat {w : Nat} (x : BitVec w) (n : Nat) :
    (rotr x n).toNat = ((x.toNat >>> n) ||| (x.toNat <<< (w - n))) % 2 ^ w := by
  have low : x.toNat >>> n % 2 ^ w = x.toNat >>> n :=
    Nat.mod_eq_of_lt (Nat.lt_of_le_of_lt (Nat.shiftRight_le _ _) x.isLt)
  rw [rotr, BitVec.toNat_or, BitVec.toNat_ushiftRight, BitVec.toNat_shiftLeft, Nat.or_mod_two_pow, low]

/-- Adding `n` and adding `w - n` modulo `w` undo each other on the bit positions. -/
theorem add_mod_add_mod_cancel {w n i : Nat} (hn : n < w) (hi : i < w) : ((i + n) % w + (w - n)) % w = i := by
  rw [Nat.mod_add_mod, show i + n + (w - n) = i + w by omega, Nat.add_mod_right, Nat.mod_eq_of_lt hi]

/-- A rotation moves the 1 bits, one to one. -/
theorem card_bits_rotr {w : Nat} (x : BitVec w) {n : Nat} (h0 : 0 < n) (hn : n < w) :
    ((Finset.range w).filter fun i => (rotr x n).getLsbD i = true).card =
      ((Finset.range w).filter fun i => x.getLsbD i = true).card := by
  have pos : 0 < w := Nat.zero_lt_of_lt hn
  have forth {i : Nat} (hi : i < w) : ((i + n) % w + (w - n)) % w = i := add_mod_add_mod_cancel hn hi
  have back {i : Nat} (hi : i < w) : ((i + (w - n)) % w + n) % w = i := by
    have cancel := add_mod_add_mod_cancel (n := w - n) (Nat.sub_lt pos h0) hi
    rwa [Nat.sub_sub_self hn.le] at cancel
  refine Finset.card_bij' (fun i _ => (i + n) % w) (fun i _ => (i + (w - n)) % w) ?_ ?_ ?_ ?_
  all_goals intro i hi; obtain ⟨hlt, hbit⟩ := Finset.mem_filter.mp hi; replace hlt := Finset.mem_range.mp hlt
  · exact Finset.mem_filter.mpr ⟨Finset.mem_range.mpr (Nat.mod_lt _ pos), rotr_getLsbD x n i hn hlt ▸ hbit⟩
  · refine Finset.mem_filter.mpr ⟨Finset.mem_range.mpr (Nat.mod_lt _ pos), ?_⟩
    rw [rotr_getLsbD x n _ hn (Nat.mod_lt _ pos), back hlt]
    exact hbit
  · exact forth hlt
  · exact back hlt

theorem rotr_allOnes {w n : Nat} (hn : n < w) : rotr (BitVec.allOnes w) n = BitVec.allOnes w := by
  apply BitVec.eq_of_getLsbD_eq
  intro i hi
  rw [rotr_getLsbD _ n i hn hi, BitVec.getLsbD_allOnes, BitVec.getLsbD_allOnes, decide_eq_true hi,
    decide_eq_true (Nat.mod_lt _ (by omega))]

/-- Settles O30: the formula is the definition, and the other clauses follow from the bit that comes to each place. -/
theorem rotrRotatesRight : Obligations.RotrRotatesRight :=
  fun _ x n h0 hn => ⟨rotr_toNat x n, fun i hi => rotr_getLsbD x n i hn hi, card_bits_rotr x h0 hn,
    by simp [rotr], rotr_allOnes hn⟩

theorem shr_toNat {w : Nat} (x : BitVec w) (n : Nat) : (shr x n).toNat = x.toNat / 2 ^ n := by
  rw [shr, BitVec.toNat_ushiftRight, Nat.shiftRight_eq_div_pow]

/-- Settles O31: a shift to the right is the division, and `2^w - 1` divided by `2^n` is `2^(w-n) - 1`. -/
theorem shrIsFloorDivision : Obligations.ShrIsFloorDivision := by
  intro w x n _ hn
  refine ⟨shr_toNat x n, ?_⟩
  have split : 2 ^ w = 2 ^ n * 2 ^ (w - n) := by rw [← pow_add, Nat.add_sub_cancel' hn.le]
  rw [shr_toNat, BitVec.toNat_allOnes, split]
  exact (Nat.mul_sub_div 0 _ _ (by positivity)).trans (by rw [Nat.zero_div])

/-! ### The sigmas (R106 to R109) -/

/-- The form shared by R106 and R107, at amounts below the width, by the library's rotation. -/
theorem mixShift_eq_rotateRight {w : Nat} {q : Nat × Nat × Nat} (x : BitVec w) (hq : q.1 < w ∧ q.2.1 < w) :
    mixShift q x = x.rotateRight q.1 ^^^ x.rotateRight q.2.1 ^^^ x >>> q.2.2 := by
  obtain ⟨hfst, hsnd⟩ := hq
  rw [mixShift, rotr_eq_rotateRight x _ hfst, rotr_eq_rotateRight x _ hsnd, shr]

/-- Settles O33: the two forms at the amounts of each width's configuration. -/
theorem sigmasUseSpecAmounts : Obligations.SigmasUseSpecAmounts := by
  refine ⟨fun x => ⟨?_, ?_, ?_, ?_⟩, fun x => ⟨?_, ?_, ?_, ?_⟩⟩
  · exact mixShift_eq_rotateRight (q := config32.lower0) x (by decide)
  · exact mixShift_eq_rotateRight (q := config32.lower1) x (by decide)
  · exact mixRotate_eq_rotateRight (q := config32.upper0) x (by decide)
  · exact mixRotate_eq_rotateRight (q := config32.upper1) x (by decide)
  · exact mixShift_eq_rotateRight (q := config64.lower0) x (by decide)
  · exact mixShift_eq_rotateRight (q := config64.lower1) x (by decide)
  · exact mixRotate_eq_rotateRight (q := config64.upper0) x (by decide)
  · exact mixRotate_eq_rotateRight (q := config64.upper1) x (by decide)

end Sys2Proof.Machine
end

section
/-! PROOFS. Scope: the constants as fractional bits of roots of primes (spec/46_constants.md R190 to R195). -/

namespace Sys2Proof.Machine

/-- The first 80 primes. -/
def firstPrimes : List Nat :=
  [2, 3, 5, 7, 11, 13, 17, 19, 23, 29, 31, 37, 41, 43, 47, 53, 59, 61, 67, 71,
    73, 79, 83, 89, 97, 101, 103, 107, 109, 113, 127, 131, 137, 139, 149, 151, 157, 163, 167, 173,
    179, 181, 191, 193, 197, 199, 211, 223, 227, 229, 233, 239, 241, 251, 257, 263, 269, 271, 277, 281,
    283, 293, 307, 311, 313, 317, 331, 337, 347, 349, 353, 359, 367, 373, 379, 383, 389, 397, 401, 409]

theorem filter_prime_range_eq : (List.range 410).filter (fun p => Nat.Prime p) = firstPrimes := by
  decide +kernel

/-- The element `t` of the numbers below `N` that satisfy `q`, in rising order, has `t` such numbers below it. -/
theorem count_of_filter_range_getElem? {q : Nat → Prop} [DecidablePred q] {N t p : Nat}
    (h : ((List.range N).filter (fun j => q j))[t]? = some p) : q p ∧ Nat.count q p = t := by
  induction N with
  | zero => simp at h
  | succ N ih =>
    have hcount : ((List.range N).filter (fun j => q j)).length = Nat.count q N := by
      rw [Nat.count, List.countP_eq_length_filter]
    rw [List.range_succ, List.filter_append] at h
    by_cases ht : t < ((List.range N).filter (fun j => q j)).length
    · rw [List.getElem?_append_left ht] at h
      exact ih h
    · rw [List.getElem?_append_right (Nat.not_lt.mp ht)] at h
      by_cases hN : q N
      · rw [List.filter_singleton, decide_eq_true hN, cond_true] at h
        obtain ⟨hlt, hp⟩ := List.getElem?_eq_some_iff.mp h
        simp only [List.length_singleton] at hlt
        obtain rfl : N = p := by simpa using hp
        exact ⟨hN, by omega⟩
      · simp [hN] at h

theorem firstPrimes_getElem? {t p : Nat} (h : firstPrimes[t]? = some p) : p.Prime ∧ Nat.count Nat.Prime p = t :=
  count_of_filter_range_getElem? (N := 410) (by rw [filter_prime_range_eq, h])

/-- A table that is, entry by entry, the fractional bits of the `k`-th roots of consecutive primes. -/
theorem exists_root_of_table {w n k off scale : Nat} {table : Vector (BitVec w) n} (hk : k ≠ 0)
    (htable : table.toList.map BitVec.toNat =
      ((firstPrimes.drop off).take n).map fun p => Nat.nthRoot k (p * 2 ^ scale) % 2 ^ w)
    {t c : Nat} (ht : t < n) (hc : off + t = c) :
    ∃ p r : Nat, p.Prime ∧ Nat.count Nat.Prime p = c ∧ r ^ k ≤ p * 2 ^ scale ∧ p * 2 ^ scale < (r + 1) ^ k ∧
      table[t].toNat = r % 2 ^ w := by
  have entry := congrArg (·[t]?) htable
  simp only [List.getElem?_map, List.getElem?_take_of_lt ht, List.getElem?_drop] at entry
  rw [Vector.getElem?_toList, Vector.getElem?_eq_getElem ht, Option.map_some] at entry
  obtain ⟨p, hp, hroot⟩ := Option.map_eq_some_iff.mp entry.symm
  obtain ⟨hprime, hcount⟩ := firstPrimes_getElem? hp
  exact ⟨p, Nat.nthRoot k (p * 2 ^ scale), hprime, hcount.trans hc, Nat.pow_nthRoot_le (.inl hk),
    Nat.lt_pow_nthRoot_add_one hk _, hroot.symm⟩

/-- Settles O34: the five tables are evaluated against the roots of the first 80 primes. -/
theorem constantsAreRootFractions : Obligations.ConstantsAreRootFractions := by
  refine ⟨fun t ht => ?k32, fun t ht => ?k64, fun k hk => ?iv256, fun k hk => ?iv384, fun k hk => ?iv512⟩
  case k32 =>
    exact exists_root_of_table (k := 3) (off := 0) (scale := 96) (by decide) (by decide +kernel) ht (Nat.zero_add t)
  case k64 =>
    exact exists_root_of_table (k := 3) (off := 0) (scale := 192) (by decide) (by decide +kernel) ht (Nat.zero_add t)
  case iv256 =>
    exact exists_root_of_table (k := 2) (off := 0) (scale := 64) (by decide) (by decide +kernel) hk (Nat.zero_add k)
  case iv384 =>
    exact exists_root_of_table (k := 2) (off := 8) (scale := 128) (by decide) (by decide +kernel) hk (Nat.add_comm 8 k)
  case iv512 =>
    exact exists_root_of_table (k := 2) (off := 0) (scale := 128) (by decide) (by decide +kernel) hk (Nat.zero_add k)

end Sys2Proof.Machine
end

section
/-! PROOFS. Scope: the invariants of the padded message (spec/41_padder.md R134). -/

namespace Sys2Proof.Machine

/-- Settles O37: the length of the padded message, its parts, and the ends of the zero fill. -/
theorem paddingInvariants : Obligations.PaddingInvariants := by
  rintro w m N B Lb hw hn rfl hB hLb
  obtain rfl : B = blockBytes w := hB.trans (blockBytes_eq hw).symm
  obtain rfl : Lb = lengthBytes w := hLb.trans (lengthBytes_eq hw).symm
  obtain ⟨hfits, hzero⟩ := padding_fits w m.length hw
  have field : 8 * m.length < 2 ^ (8 * lengthBytes w) :=
    lt_of_lt_of_le (bitLength_lt_word hw hn) (Nat.pow_le_pow_right (by decide) (by rw [lengthBytes_eq hw]; omega))
  refine ⟨padded_length w m hw, ?_, List.take_left' rfl, ?_, by omega, hzero, ?_⟩
  · rw [padded_length w m hw, Nat.mul_mod_left]
  · rw [padded_drop w m hw, fromBE_beBytes_of_lt field]
  · rw [zeroFill] at hzero
    omega

end Sys2Proof.Machine
end

section
/-! PROOFS. Scope: whole runs: a command and CoreRun, and the script of one digest (spec/30_encoding.md R88, R89,
spec/48_host_operations.md R200, spec/45_chaining_and_digest.md R177). -/

namespace Sys2Proof.Machine

variable {s t u : State} {m bytes : List Byte} {alg : Alg} {rest : List Event}

/-! ### Runs in a row -/

theorem core_run_add (M : Host.Core) {j k : Nat} {a b c : M.State} (hj : M.run j a = .next b)
    (hk : M.run k b = .next c) : M.run (j + k) a = .next c := by
  induction j generalizing a with
  | zero => cases hj; rwa [Nat.zero_add]
  | succ j ih =>
    rw [Nat.succ_add]
    simp only [Host.Core.run] at hj ⊢
    cases hs : M.step a with
    | next v => exact ih (by simpa only [hs] using hj)
    | fault r => simp [hs] at hj
    | refused r => simp [hs] at hj

theorem run_append {j k : Nat} (hj : Host.Core.run Sys2Proof.core j s = .next t)
    (hk : Host.Core.run Sys2Proof.core k t = .next u) : Host.Core.run Sys2Proof.core (j + k) s = .next u :=
  core_run_add Sys2Proof.core hj hk

theorem run_one (h : step s = .next t) : Host.Core.run Sys2Proof.core 1 s = .next t :=
  run_succ h

/-! ### A command and CoreRun (R200, R177) -/

/-- What a digest run leaves: the digest of the message in DIG, DONE, and MSG and LEN as before. -/
structure State.Digested (s : State) (alg : Alg) (m : List Byte) (rest : List Event) (t : State) : Prop where
  fault : t.fault = none
  input : t.input = rest
  status : t.status = { busy := false, done := true, lalg := alg }
  msg : t.msg = s.msg
  len : t.len = s.len
  reads : t.reads = s.reads
  digest : ∀ j, j < digestLen alg → t.dig.read j = (sha alg m)[j]?

/-- A HASH command, however it comes to the core, and then CoreRun compute the digest. -/
theorem run_hash_coreRun {i : Instr} {op : HostOp} (hi : (i, alg) ∈ hashEncodings) (hf : s.fault = none)
    (hb : s.status.busy = false) (acc : accepts s.kind alg = true) (hm : s.message = some m)
    (fits : m.length ≤ s.msgCap.val) (hin : s.input = .host op :: .coreRun :: rest)
    (hop : decode s.msgCap.val op = .ok i) :
    ∃ t, Host.Core.run Sys2Proof.core 2 s = .next t ∧ s.Digested alg m rest t := by
  have fits' : s.len.toNat ≤ s.msgCap.val := Memory.readAll_length hm ▸ fits
  have written := Memory.written_of_firstUnwritten_eq_none (Memory.firstUnwritten_eq_none_iff.mpr ⟨m, hm⟩)
  obtain ⟨data, hexec⟩ := exec_of_mem_hashEncodings hi (s.withInput (.coreRun :: rest))
  obtain ⟨g, hg, hstart⟩ := State.acceptHash_starts (s := s.withInput (.coreRun :: rest)) data acc hb fits' written
  have hjob := State.startJob_job (s := s.withInput rest) acc fits' hm hg
  obtain ⟨t, ht, hend⟩ := hjob.coreRun (fun hq => Seq.noConfusion hq)
  have accepted : step s = .next (State.startJob (s.withInput (.coreRun :: rest)) alg g
      (blocksFor (algWidth alg) s.len.toNat)) := by
    rw [step_of_decode_ok hf hin hop, hexec]
    exact (State.ifEnabled_of_none (s := s.withInput (.coreRun :: rest)) hf _).trans hstart
  have ended : step (State.startJob (s.withInput (.coreRun :: rest)) alg g
      (blocksFor (algWidth alg) s.len.toNat)) = .next t := by
    rw [step_of_turn (rest := rest) (ev := .coreRun) _ rfl]
    · exact ht
    · exact hf
  obtain ⟨-, -, hlen, hmsg, -, -, -, hfault, hinput, hreads⟩ := hend.frame
  exact ⟨t, run_append (run_one accepted) (run_one ended), hfault.trans hf, hinput, hend.status, hmsg, hlen, hreads,
    fun j => hend.read_digest⟩

/-- Every capacity has the HASH commands, in both encodings. -/
theorem wellFormed_of_mem_hashEncodings {i : Instr} (cap : Nat) (h : (i, alg) ∈ hashEncodings) :
    WellFormed cap i = true := by
  simp only [hashEncodings, List.mem_cons, Prod.mk.injEq, List.not_mem_nil, or_false] at h
  rcases h with ⟨rfl, -⟩ | ⟨rfl, -⟩ | ⟨rfl, -⟩ | ⟨rfl, -⟩ | ⟨rfl, -⟩ | ⟨rfl, -⟩ <;> rfl

/-- Settles O57: the encoded command decodes to itself, its acceptance starts the job, and CoreRun ends it. -/
theorem hashThenCoreRunGivesDigest : Obligations.HashThenCoreRunGivesDigest := by
  intro s i alg m rest hi _ hf hb acc hm fits hin
  obtain ⟨t, hrun, ht⟩ := run_hash_coreRun hi hf hb acc hm fits hin
    (decodeOfEncode _ i (wellFormed_of_mem_hashEncodings _ hi))
  exact ⟨t, ⟨hrun, ht.fault⟩, ht.input, ht.status, ht.msg, ht.len, ht.digest⟩

/-! ### The lines of the script (R88, R89) -/

theorem toNat_index_of_lt {n : Nat} (cap : MsgCap) (h : n < cap.val) : (BitVec.ofNat 28 n).toNat = n := by
  have hcap : cap.val < 2 ^ 28 + 1 := cap.isLt
  rw [BitVec.toNat_ofNat]
  exact Nat.mod_eq_of_lt (by omega)

/-- One line `wr MSG[n], b` of an idle core. -/
theorem step_opWrMsg {n : Nat} {b : Byte} (hf : s.fault = none) (hb : s.status.busy = false) (hn : n < s.msgCap.val)
    (hin : s.input = .host (opWrMsg n b) :: rest) : step s = .next ((s.withInput rest).withMsgByte n b) := by
  have hidx : (BitVec.ofNat 28 n).toNat = n := toNat_index_of_lt s.msgCap hn
  have hlt : (BitVec.ofNat 28 n).toNat < s.msgCap.val := by rwa [hidx]
  have hdata : (byteValue b).toNat < 256 := by rw [toNat_byteValue]; exact b.isLt
  have hbyte : dataByte (byteValue b) = b := by
    rw [dataByte_eq_ofNat, toNat_byteValue, BitVec.ofNat_toNat, BitVec.setWidth_eq]
  rw [step_of_decode_ok hf hin (decode_reqWrMsg _ hlt), exec_wrMsg_of_idle (s := s.withInput rest) hf hlt hdata hb,
    hidx, hbyte]

/-- The writes of `load`: consecutive bytes, one step each. -/
theorem run_opsWrMsgs (hf : s.fault = none) (hb : s.status.busy = false) {n : Nat}
    (fits : n + bytes.length ≤ s.msgCap.val) (hin : s.input = (opsWrMsgs n bytes).map .host ++ rest) :
    Host.Core.run Sys2Proof.core bytes.length s =
      .next { s with msg := s.msg.writeAll n bytes, input := rest } := by
  induction bytes generalizing s n with
  | nil =>
    obtain rfl : s.input = rest := hin
    rfl
  | cons b bs ih =>
    rw [List.length_cons] at fits
    rw [List.length_cons, run_succ (step_opWrMsg hf hb (by omega) hin)]
    have fits' : n + 1 + bs.length ≤ s.msgCap.val := by omega
    exact ih (s := (s.withInput ((opsWrMsgs (n + 1) bs).map .host ++ rest)).withMsgByte n b) hf hb fits' rfl

/-- The message that `load` leaves: the bytes written from cell 0 on, with their number in LEN. -/
theorem Memory.readAll_writeAll (mem : Memory) (bytes : List Byte) :
    (mem.writeAll 0 bytes).readAll 0 bytes.length = some bytes := by
  have written : ∀ j, j < bytes.length → (mem.writeAll 0 bytes).read j ≠ none := by
    intro j hj
    rw [Memory.read_writeAll_zero_of_lt mem hj, List.getElem?_eq_getElem hj]
    exact Option.some_ne_none _
  obtain ⟨vs, hvs⟩ := Memory.firstUnwritten_eq_none_iff.mp (Memory.firstUnwritten_eq_none_of_written written)
  have hlen := Memory.readAll_length hvs
  suffices vs = bytes by rw [hvs, this]
  apply List.ext_getElem?
  intro j
  by_cases hj : j < bytes.length
  · rw [Memory.readAll_getElem? hvs j hj, Nat.zero_add, Memory.read_writeAll_zero_of_lt mem hj]
  · rw [List.getElem?_eq_none (by omega), List.getElem?_eq_none (by omega)]

/-- `s` after a `load` of `bytes` (R89), with the turns `l` to come. -/
def State.afterLoad (s : State) (bytes : List Byte) (l : List Event) : State :=
  { s with msg := s.msg.writeAll 0 bytes, len := BitVec.ofNat 32 bytes.length, input := l }

theorem State.afterLoad_message (s : State) (fits : bytes.length ≤ s.msgCap.val) (l : List Event) :
    (s.afterLoad bytes l).message = some bytes := by
  have hcap : s.msgCap.val < 2 ^ 28 + 1 := s.msgCap.isLt
  have hlen : (BitVec.ofNat 32 bytes.length).toNat = bytes.length := by
    rw [BitVec.toNat_ofNat]
    exact Nat.mod_eq_of_lt (by omega)
  rw [State.message, State.afterLoad, hlen]
  exact Memory.readAll_writeAll s.msg bytes

theorem run_load (hf : s.fault = none) (hb : s.status.busy = false) (fits : bytes.length ≤ s.msgCap.val)
    (hin : s.input = ((ScriptLine.load bytes).expand 0).map .host ++ rest) :
    Host.Core.run Sys2Proof.core (bytes.length + 1) s = .next (s.afterLoad bytes rest) := by
  have hsplit : s.input = (opsWrMsgs 0 bytes).map .host ++
      (.host (.bus reqWrLen (BitVec.ofNat 32 bytes.length)) :: rest) := by
    rw [hin, ScriptLine.expand, List.map_append, List.append_assoc]
    rfl
  refine run_append (run_opsWrMsgs hf hb (by omega) hsplit) (run_one ?_)
  rw [step_of_decode_ok _ rfl (decode_reqWrLen _ _)]
  · exact exec_wrLen_of_idle hf hb
  · exact hf

/-- One line `rd DIG[j]` of a core with a finished digest. -/
theorem step_rdDig {j : Nat} {b : Byte} (hf : s.fault = none) (hd : s.status.done = true)
    (hj : j < digestLen s.status.lalg) (hread : s.dig.read j = some b)
    (hin : s.input = .host (.bus (reqRdDig (BitVec.ofNat 28 j)) 0) :: rest) :
    step s = .next ((s.withInput rest).withRead (byteValue b)) := by
  have hcells : j < digCells := Nat.lt_of_lt_of_le hj (digestLen_le_digCells _)
  have hidx : (BitVec.ofNat 28 j).toNat = j := by
    rw [BitVec.toNat_ofNat]
    exact Nat.mod_eq_of_lt (Nat.lt_trans hcells (by decide))
  rw [step_of_decode_ok hf hin (decode_reqRdDig 0 (by rwa [hidx]))]
  exact exec_rdDig_of_written (s := s.withInput rest) hf (by rwa [hidx]) hd (by rwa [hidx]) (by rwa [hidx])

/-- The reads of `rddig`: one step and one read value each. -/
theorem run_rdDigs (f : Nat → Byte) (js : List Nat) (hf : s.fault = none) (hd : s.status.done = true)
    (hjs : ∀ j ∈ js, j < digestLen s.status.lalg ∧ s.dig.read j = some (f j))
    (hin : s.input = (js.map fun j => HostOp.bus (reqRdDig (BitVec.ofNat 28 j)) 0).map .host ++ rest) :
    Host.Core.run Sys2Proof.core js.length s =
      .next { s with reads := (js.map fun j => byteValue (f j)).reverse ++ s.reads, input := rest } := by
  induction js generalizing s with
  | nil =>
    obtain rfl : s.input = rest := hin
    rfl
  | cons j js ih =>
    obtain ⟨hj, hread⟩ := hjs j List.mem_cons_self
    rw [List.length_cons, run_succ (step_rdDig hf hd hj hread hin), List.map_cons, List.reverse_cons, List.append_assoc]
    exact ih (s := (s.withInput ((js.map fun j => HostOp.bus (reqRdDig (BitVec.ofNat 28 j)) 0).map .host ++
      rest)).withRead (byteValue (f j))) hf hd (fun k hk => hjs k (List.mem_cons_of_mem _ hk)) rfl

theorem step_rdStatus (hf : s.fault = none) (hin : s.input = .host (.bus reqRdStatus 0) :: rest) :
    step s = .next ((s.withInput rest).withRead s.status.word) := by
  rw [step_of_decode_ok hf hin (decode_reqRdStatus _ 0)]
  exact exec_rdStatus_of_none (s := s.withInput rest) hf

/-- The poll of `wait` and the reads of `rddig` after a digest run, and the values they give the host. -/
theorem State.Digested.run_reads (h : s.Digested alg m
      ((ScriptLine.wait.expand 1 ++ (ScriptLine.rddig (digestLen alg)).expand 0).map .host ++ rest) t) :
    Host.Core.run Sys2Proof.core (1 + digestLen alg) t =
      .next { t with reads := ((sha alg m).map byteValue).reverse ++ t.status.word :: t.reads, input := rest } := by
  have poll := step_rdStatus (rest := ((ScriptLine.rddig (digestLen alg)).expand 0).map Event.host ++ rest)
    h.fault h.input
  have values : (List.range (digestLen alg)).map (fun j => byteValue ((sha alg m).getD j 0)) =
      (sha alg m).map byteValue := by
    apply List.ext_getElem
    · simp [length_sha]
    · intro j hj hj'
      rw [List.length_map] at hj'
      rw [List.getElem_map, List.getElem_map, List.getElem_range, List.getD_eq_getElem _ _ hj']
  have digits : ∀ j ∈ List.range (digestLen alg), j < digestLen t.status.lalg ∧
      t.dig.read j = some ((sha alg m).getD j 0) := by
    intro j hj
    have hlt : j < digestLen alg := List.mem_range.mp hj
    have hsha : j < (sha alg m).length := by rwa [length_sha]
    refine ⟨by rwa [h.status], ?_⟩
    rw [h.digest j hlt, List.getElem?_eq_getElem hsha, List.getD_eq_getElem _ _ hsha]
  have reads := run_rdDigs (s := (t.withInput (((ScriptLine.rddig (digestLen alg)).expand 0).map Event.host ++
    rest)).withRead t.status.word) (fun j => (sha alg m).getD j 0) _ h.fault (congrArg Status.done h.status) digits rfl
  rw [values, List.length_range] at reads
  exact run_append (run_one poll) reads

/-- The STATUS word that ends a `wait` (R89): DONE is 1. -/
theorem waitReads_word_done (alg : Alg) :
    waitReads [Status.word { busy := false, done := true, lalg := alg }] = true := by
  cases alg with
  | sha256 => decide
  | sha384 => decide
  | sha512 => decide

/-- The write of a HASH command's word, as a line of a script, is the acceptance of its algorithm. -/
theorem expand_hash {line : ScriptLine}
    (h : (line, alg) ∈ [(.hashSha256, .sha256), (.hashSha384, .sha384), (.hashSha512, .sha512)]) :
    ∃ word, line.expand 0 = [.bus reqWrCmd word] ∧ (.wrCmd word, alg) ∈ hashEncodings := by
  simp only [List.mem_cons, Prod.mk.injEq, List.not_mem_nil, or_false] at h
  rcases h with ⟨rfl, rfl⟩ | ⟨rfl, rfl⟩ | ⟨rfl, rfl⟩
  · exact ⟨cmdSha256, rfl, by decide⟩
  · exact ⟨cmdSha384, rfl, by decide⟩
  · exact ⟨cmdSha512, rfl, by decide⟩

/-- Settles O58: the lines one after another, each with the state it leaves: the message in MSG, its digest in DIG, and
the reads of STATUS and of the digest. -/
theorem scriptReadsDigest : Obligations.ScriptReadsDigest := by
  intro s bytes line alg rest hline _ hf hb acc fits hin
  obtain ⟨word, hexpand, hword⟩ := expand_hash hline
  rw [List.map_append, List.append_assoc, hexpand] at hin
  have load := run_load hf hb fits hin
  have hm := s.afterLoad_message fits (.host (.bus reqWrCmd word) :: .coreRun ::
    ((ScriptLine.wait.expand 1 ++ (ScriptLine.rddig (digestLen alg)).expand 0).map .host ++ rest))
  obtain ⟨t, hash, ht⟩ :=
    run_hash_coreRun (s := s.afterLoad bytes _) hword hf hb acc hm fits rfl (decode_reqWrCmd _ word)
  refine ⟨_, _, ⟨run_append load (run_append hash ht.run_reads), ht.fault⟩, rfl, ?_, fun j hj => ?_, t.status.word,
    ?_, ?_, ?_⟩
  · exact (State.message_congr ht.msg ht.len).trans hm
  · exact (congrArg (Memory.read · j) ht.msg).trans (Memory.read_writeAll_zero_of_le s.msg hj)
  · rw [ht.status, Status.toNat_word]
    cases alg with
    | sha256 => rfl
    | sha384 => rfl
    | sha512 => rfl
  · rw [ht.status, waitReads_word_done]
  · rw [ht.reads]
    rfl

end Sys2Proof.Machine
end
